-- ==== Sys2Proof/Word.lean ====
section
/-! DEFINITION. The widths the spec gives its values (R6, R20 to R26): each is what the spec masks, concatenates or wraps. -/

namespace Sys2Proof

/-- An unsigned integer 0..255, bits numbered 7 down to 0 (R6). -/
abbrev Byte := BitVec 8

/-- Half a byte: a PCI type, a sequence number, a flow status (R6, R62). -/
abbrev Nibble := BitVec 4

/-- A CAN identifier as the 29-bit register `S.peerId` holds it; an 11-bit one has bits 28..11 zero (R25). -/
abbrev Identifier := BitVec 29

/-- A 12-bit byte count 0..4095: `S.expectedLength`, `S.bufLen` (R21, R22). -/
abbrev Count := BitVec 12

end Sys2Proof
end

