-- ==== Sys2Proof/Config.lean ====
section
/-! DEFINITION. The parameters of ITPB (R5): named constants for the values the spec fixes, constants without a body for the values it leaves OPEN, and the static configuration (R30) as plain data. -/

namespace Sys2Proof.Config

/-- `MAX_LEN`: the largest reassembled payload (R5). -/
abbrev maxLen : Nat := 4095
/-- `BUF_BYTES`: the capacity of the reassembly buffer (R5, R40). -/
abbrev bufBytes : Nat := 4095
/-- `FRAME_BYTES`: the most data bytes a CAN frame has (R5, R60). -/
abbrev frameBytes : Nat := 8
/-- `FILL`: the filler of an encoded request (R5, R67). -/
abbrev fill : Byte := 0xCC#8
/-- `FF_DATA`: the data bytes of a First frame (R5, R64). -/
abbrev ffData : Nat := 6
/-- `CF_DATA`: the data bytes of a Consecutive frame (R5, R65). -/
abbrev cfData : Nat := 7
/-- `SF_MAX`: the largest Single length (R5, R63). -/
abbrev sfMax : Nat := 7
/-- `SEQ_FIRST`: the first expected sequence number (R5, R23). The modulus `SEQ_MOD` is the width of `Nibble`. -/
abbrev seqFirst : Nibble := 1#4
/-- `FC_BS`: the block size sent, 0 for "unlimited" (R5). -/
abbrev fcBlockSize : Byte := 0#8
/-- `FC_ST`: the separation time sent (R5). -/
abbrev fcSeparation : Byte := 0#8
/-- `FC_LEN`: the length of a generated flow-control frame (R5, R66; the spec's decision D13, log 14). -/
abbrev fcLen : Nat := 8
/-- `ContinueToSend` (R74). PRESUMED: the spec takes the number from general knowledge, GK1 (log 13). -/
abbrev continueToSend : Nibble := 0#4
/-- The status `Wait` (R74); never generated. PRESUMED, GK1 (log 13). -/
abbrev waitStatus : Nibble := 1#4
/-- The status `Overflow` (R74); never generated. PRESUMED, GK1 (log 13). -/
abbrev overflowStatus : Nibble := 2#4
/-- The functional request identifier, the default of `REQ_ID` (R5, R45). -/
abbrev functionalId : Identifier := 0x7DF#29
/-- `RESP_LO` for standard addressing: a bound of the host's filter, outside the block (R161). -/
abbrev respLo : Identifier := 0x7E8#29
/-- `RESP_HI` for standard addressing (R161). -/
abbrev respHi : Identifier := 0x7EF#29

/-- `RESP_LO` for extended addressing: OPEN (R5, U5). -/
opaque respLoExt : Identifier
/-- `RESP_HI` for extended addressing: OPEN (R5, U5). -/
opaque respHiExt : Identifier
/-- `FC_ID(id, true)`: OPEN (R5, U15). A free value: nothing constrains it (log 12). -/
opaque fcIdExt : Identifier → Identifier
/-- `TIME_BITS`: the width of a timestamp, OPEN (R5, R24). -/
opaque timeBits : Nat
/-- `FRAME_TIMEOUT`: the duration of the per-frame deadline, OPEN (R5, R24). -/
opaque frameTimeout : Nat
/-- The environment's time `now` at a step boundary (R145). A free value: nothing constrains it (log 10). -/
opaque clock : Nat → BitVec timeBits

end Sys2Proof.Config

namespace Sys2Proof

/-- A timestamp of the concrete timer binding (R24, R145). -/
abbrev Time := BitVec Config.timeBits

/-- One row of the integrator's `FC_ID` table: the flow-control frame answering a First frame from
`peer` is sent on `fc` (R5, R45). -/
structure FcIdEntry where
  extended : Bool
  peer     : Identifier
  fc       : Identifier
  deriving DecidableEq, Repr

/-- The static configuration (R30, R211 (a)): fixed before the first event, changed by no event. -/
structure Cfg where
  /-- `REQ_ID`. -/
  reqId  : Identifier
  /-- `REQ_EXT`. -/
  reqExt : Bool
  /-- `FC_FILL`. -/
  fcFill : Byte
  /-- `FC_ID` where the integrator departs from the default. -/
  fcIds  : List FcIdEntry
  deriving DecidableEq, Repr

/-- The default configuration (R5). -/
def Cfg.default : Cfg := { reqId := Config.functionalId, reqExt := false, fcFill := Config.fill, fcIds := [] }

end Sys2Proof
end

