-- ==== Sys2Proof/Syntax.lean ====
section
/-! DEFINITION. The input events and operations of ITPB: one constructor of `Instr` for each row of spec/opcode_table.json, with its operands already taken apart. -/

namespace Sys2Proof

/-- The sender of a frame: its identifier and whether that is a 29-bit one (R60, R25). -/
structure Sender where
  id       : Identifier
  extended : Bool
  deriving DecidableEq, Repr

/-- A CAN frame record (R60). -/
structure CanFrame where
  id       : Identifier
  extended : Bool
  rtr      : Bool
  data     : List Byte
  deriving DecidableEq, Repr

/-- The sender of a frame record. -/
def CanFrame.sender (f : CanFrame) : Sender := { id := f.id, extended := f.extended }

/-- The agents that act on ITPB (R10). -/
inductive Agent where
  | block | host | adapter | timer | responder
  deriving DecidableEq, Repr

/-- The rows of spec/opcode_table.json. The `rx…` rows are RX events: their operands are the sender,
the bits of the PCI byte the row leaves free, and `rest`, the data bytes after the PCI byte. -/
inductive Instr where
  /-- `RX.SF`: PCI byte `00000LLL` (R63, R114). -/
  | rxSf (src : Sender) (len : BitVec 3) (rest : List Byte)
  /-- `RX.SF_LEN_RSVD`: PCI byte `00001LLL` (R72). -/
  | rxSfLenRsvd (src : Sender) (low : BitVec 3) (rest : List Byte)
  /-- `RX.FF`: PCI byte `0001HHHH` (R64, R115, R116). -/
  | rxFf (src : Sender) (high : Nibble) (rest : List Byte)
  /-- `RX.CF`: PCI byte `0010NNNN` (R65, R117 to R119). -/
  | rxCf (src : Sender) (sn : Nibble) (rest : List Byte)
  /-- `RX.FC`: PCI byte `0011FFFF` (R66, R120). -/
  | rxFc (src : Sender) (status : Nibble) (rest : List Byte)
  /-- `RX.PCI_RSVD_4_7`: PCI byte `01xxxxxx` (R71). -/
  | rxPciRsvd47 (src : Sender) (low : BitVec 6) (rest : List Byte)
  /-- `RX.PCI_RSVD_8_F`: PCI byte `1xxxxxxx` (R71). -/
  | rxPciRsvd8F (src : Sender) (low : BitVec 7) (rest : List Byte)
  /-- `RX.EMPTY`: a frame with no data byte (R97). -/
  | rxEmpty (src : Sender)
  /-- `RX.RTR`: a remote frame (R112). -/
  | rxRtr (src : Sender) (data : List Byte)
  /-- `RX.HOLD`: any frame, the row matched on `S.st` terminal (R111). -/
  | rxHold (f : CanFrame)
  /-- `RX`: the event of tag 0, its frame not yet taken apart (R110). -/
  | rx (f : CanFrame)
  /-- `ENCODE_REQ`: event tag 1 (R90). -/
  | encodeReq (mode : Byte) (pid : Option Byte) (extra : List Byte)
  /-- `EXPIRE`: event tag 2 (R140). -/
  | expire
  /-- `CLEAR`: event tag 3 (R141). -/
  | clear
  /-- `RESET`: event tag 4 (R142). -/
  | reset
  /-- `EVT_RSVD_5`: reserved event tag 5 (R146). -/
  | evtRsvd5
  /-- `EVT_RSVD_6`: reserved event tag 6 (R146). -/
  | evtRsvd6
  /-- `EVT_RSVD_7`: reserved event tag 7 (R146). -/
  | evtRsvd7
  /-- `CLASSIFY`: the codec's classification function (R91). -/
  | classify (data : List Byte)
  /-- `ENCODE_FC`: the codec's flow-control encoding function (R98). -/
  | encodeFc (status : Nibble) (blockSize separation : Byte)
  /-- `FC.CTS`: the one flow-control frame ITPB generates, answering `src` (R98, R115). -/
  | fcCts (src : Sender)
  /-- `REQ`: the transmit format of an encoded request (R67, R90). -/
  | req (mode : Byte) (pid : Option Byte) (extra : List Byte)
  deriving DecidableEq, Repr

end Sys2Proof
end

