-- ==== Sys2Proof/WellFormed.lean ====
section
/-! DEFINITION. What makes a record a `CanFrame` (R60) and an instruction term one the spec admits. -/

namespace Sys2Proof

/-- An identifier fits the width its `extended` flag selects: 11 or 29 bits (R60, R25). -/
def idFits (id : Identifier) (extended : Bool) : Bool := extended || decide (id.toNat < 2 ^ 11)

/-- A sender's identifier has the width its flag selects (R60). -/
def Sender.wf (src : Sender) : Bool := idFits src.id src.extended

/-- A record is a `CanFrame`: at most 8 data bytes, and an identifier of the selected width (R60). -/
def CanFrame.wf (f : CanFrame) : Bool := idFits f.id f.extended && decide (f.data.length ≤ Config.frameBytes)

/-- A configuration whose request identifier has the width `REQ_EXT` selects (R5, R60). -/
def Cfg.wf (c : Cfg) : Bool := idFits c.reqId c.reqExt

/-- An instruction term is one the spec admits: its frame is a `CanFrame` (R60), `CLASSIFY` gets 0 to 8 bytes (R91). -/
def Instr.wf : Instr → Bool
  | .rxSf src _ rest        => src.wf && decide (rest.length < Config.frameBytes)
  | .rxSfLenRsvd src _ rest => src.wf && decide (rest.length < Config.frameBytes)
  | .rxFf src _ rest        => src.wf && decide (rest.length < Config.frameBytes)
  | .rxCf src _ rest        => src.wf && decide (rest.length < Config.frameBytes)
  | .rxFc src _ rest        => src.wf && decide (rest.length < Config.frameBytes)
  | .rxPciRsvd47 src _ rest => src.wf && decide (rest.length < Config.frameBytes)
  | .rxPciRsvd8F src _ rest => src.wf && decide (rest.length < Config.frameBytes)
  | .rxEmpty src            => src.wf
  | .rxRtr src data         => src.wf && decide (data.length ≤ Config.frameBytes)
  | .rxHold f               => f.wf
  | .rx f                   => f.wf
  | .encodeReq _ _ _        => true
  | .expire                 => true
  | .clear                  => true
  | .reset                  => true
  | .evtRsvd5               => true
  | .evtRsvd6               => true
  | .evtRsvd7               => true
  | .classify data          => decide (data.length ≤ Config.frameBytes)
  | .encodeFc _ _ _         => true
  | .fcCts src              => src.wf
  | .req _ _ _              => true

end Sys2Proof
end

