-- ==== Sys2Proof/Decode.lean ====
section
/-! DEFINITION. The decoder of event images and of received frames, total on any bytes and rejecting by name, and the encoder beside it.
The spec fixes the event tags (R61), the PCI byte (R62 to R72) and the order of the checks (R81); how a port lays out an event's other operands is the model's own (log 1, log 2). -/

namespace Sys2Proof

/-! ### Bit fields -/

/-- Bits 7..4 of a byte (R6). -/
def hiNibble (b : Byte) : Nibble := b.extractLsb' 4 4

/-- Bits 3..0 of a byte (R6). -/
def loNibble (b : Byte) : Nibble := b.extractLsb' 0 4

/-- A byte matches a row of the opcode table. -/
def rowMatches (mask pattern b : Byte) : Bool := b &&& mask == pattern

/-! ### The PCI byte of each row (R62 to R66, R71, R72) -/

/-- `00000LLL`. -/
def pciSf (len : BitVec 3) : Byte := 0#5 ++ len
/-- `00001LLL`. -/
def pciSfLenRsvd (low : BitVec 3) : Byte := 1#5 ++ low
/-- `0001HHHH`. -/
def pciFf (high : Nibble) : Byte := 1#4 ++ high
/-- `0010NNNN`. -/
def pciCf (sn : Nibble) : Byte := 2#4 ++ sn
/-- `0011FFFF`. -/
def pciFc (status : Nibble) : Byte := 3#4 ++ status
/-- `01xxxxxx`. -/
def pciRsvd47 (low : BitVec 6) : Byte := 1#2 ++ low
/-- `1xxxxxxx`. -/
def pciRsvd8F (low : BitVec 7) : Byte := 1#1 ++ low

/-! ### The decoder of RX events (R81) -/

/-- The rows matched on the PCI byte, the more specific `RX.SF_LEN_RSVD` before `RX.SF` (R81 (3) to (7), R82). -/
def decodePci (src : Sender) (b : Byte) (rest : List Byte) : Instr :=
  if rowMatches 0x80#8 0x80#8 b then .rxPciRsvd8F src (b.setWidth 7) rest
  else if rowMatches 0xC0#8 0x40#8 b then .rxPciRsvd47 src (b.setWidth 6) rest
  else if rowMatches 0xF8#8 0x08#8 b then .rxSfLenRsvd src (b.setWidth 3) rest
  else if rowMatches 0xF0#8 0x00#8 b then .rxSf src (b.setWidth 3) rest
  else if rowMatches 0xF0#8 0x10#8 b then .rxFf src (loNibble b) rest
  else if rowMatches 0xF0#8 0x20#8 b then .rxCf src (loNibble b) rest
  else .rxFc src (loNibble b) rest

/-- The decoder of RX events: the remote flag, then the empty frame, then the PCI byte (R81, R82). -/
def decodeRx (f : CanFrame) : Instr :=
  if f.rtr then .rxRtr f.sender f.data
  else
    match f.data with
    | []        => .rxEmpty f.sender
    | b :: rest => decodePci f.sender b rest

/-- A data frame from `src`. -/
def dataFrame (src : Sender) (data : List Byte) : CanFrame :=
  { id := src.id, extended := src.extended, rtr := false, data := data }

/-- The frame an RX row stands for; none for a row that is no RX event. -/
def Instr.frame : Instr → Option CanFrame
  | .rxSf src len rest        => some (dataFrame src (pciSf len :: rest))
  | .rxSfLenRsvd src low rest => some (dataFrame src (pciSfLenRsvd low :: rest))
  | .rxFf src high rest       => some (dataFrame src (pciFf high :: rest))
  | .rxCf src sn rest         => some (dataFrame src (pciCf sn :: rest))
  | .rxFc src status rest     => some (dataFrame src (pciFc status :: rest))
  | .rxPciRsvd47 src low rest => some (dataFrame src (pciRsvd47 low :: rest))
  | .rxPciRsvd8F src low rest => some (dataFrame src (pciRsvd8F low :: rest))
  | .rxEmpty src              => some (dataFrame src [])
  | .rxRtr src data           => some { id := src.id, extended := src.extended, rtr := true, data := data }
  | .rxHold f                 => some f
  | .rx f                     => some f
  | .encodeReq _ _ _          => none
  | .expire                   => none
  | .clear                    => none
  | .reset                    => none
  | .evtRsvd5                 => none
  | .evtRsvd6                 => none
  | .evtRsvd7                 => none
  | .classify _               => none
  | .encodeFc _ _ _           => none
  | .fcCts _                  => none
  | .req _ _ _                => none

/-! ### Event images -/

/-- Why bytes are no event image. -/
inductive Reject where
  /-- No byte at all: there is no event tag. -/
  | emptyImage
  /-- A first byte that is neither an event tag (R61) nor one of the model's own rows (log 2). -/
  | unassignedTag
  /-- Fewer bytes than the operands need. -/
  | truncated
  /-- Bytes left over after the operands, or a data length that is not the length code's. -/
  | wrongLength
  /-- A port-level length code above 8: not a `CanFrame` (R60, U9). -/
  | lengthCodeAboveEight
  /-- A bit of the frame header that has no meaning is set. -/
  | reservedHeaderBits
  /-- An identifier wider than its `extended` flag selects: not a `CanFrame` (R60). -/
  | identifierTooWide
  /-- A PID-present byte that is neither 0 nor 1. -/
  | badPidFlag
  /-- A flow status wider than 4 bits (R98). -/
  | statusTooWide
  deriving DecidableEq, Repr

/-- The image of a frame's identifier: four bytes, most significant first. -/
def idImage (id : Identifier) : List Byte :=
  [0#3 ++ id.extractLsb' 24 5, id.extractLsb' 16 8, id.extractLsb' 8 8, id.extractLsb' 0 8]

/-- The image of a frame's header: remote flag (bit 5), extended flag (bit 4), length code (bits 3..0). -/
def headerImage (f : CanFrame) : Byte :=
  0#2 ++ BitVec.ofBool f.rtr ++ BitVec.ofBool f.extended ++ BitVec.ofNat 4 f.data.length

/-- The image of a frame record: header, identifier, data bytes. -/
def frameImage (f : CanFrame) : List Byte := headerImage f :: (idImage f.id ++ f.data)

/-- The identifier four bytes stand for, if it has the width its flag selects (R60). -/
def parseId (extended : Bool) (b3 b2 b1 b0 : Byte) : Option Identifier :=
  let id : Identifier := b3.extractLsb' 0 5 ++ b2 ++ b1 ++ b0
  if b3.extractLsb' 5 3 = 0#3 ∧ idFits id extended = true then some id else none

/-- The frame record an image stands for (R60; a length code above 8 is refused, U9). -/
def parseFrame : List Byte → Except Reject CanFrame
  | h :: b3 :: b2 :: b1 :: b0 :: data =>
    if h.extractLsb' 6 2 ≠ 0#2 then .error .reservedHeaderBits
    else if (loNibble h).toNat > Config.frameBytes then .error .lengthCodeAboveEight
    else if data.length ≠ (loNibble h).toNat then .error .wrongLength
    else
      match parseId (h.getLsbD 4) b3 b2 b1 b0 with
      | none    => .error .identifierTooWide
      | some id => .ok { id := id, extended := h.getLsbD 4, rtr := h.getLsbD 5, data := data }
  | _ => .error .truncated

/-- The image of a request's operands: mode, PID-present byte, PID if present, extra data. -/
def requestImage (mode : Byte) (pid : Option Byte) (extra : List Byte) : List Byte :=
  match pid with
  | none   => mode :: 0#8 :: extra
  | some p => mode :: 1#8 :: p :: extra

/-- The operands of a request image, handed to `k`. -/
def parseRequest (k : Byte → Option Byte → List Byte → Instr) : List Byte → Except Reject Instr
  | mode :: flag :: ops =>
    if flag = 0#8 then .ok (k mode none ops)
    else if flag = 1#8 then
      match ops with
      | p :: extra => .ok (k mode (some p) extra)
      | []         => .error .truncated
    else .error .badPidFlag
  | _ => .error .truncated

/-- An event without operands. -/
def parseBare (i : Instr) : List Byte → Except Reject Instr
  | []     => .ok i
  | _ :: _ => .error .wrongLength

/-- An instruction whose one operand is a frame. -/
def parseFramed (k : CanFrame → Instr) (ops : List Byte) : Except Reject Instr :=
  match parseFrame ops with
  | .error r => .error r
  | .ok f    => .ok (k f)

/-- `CLASSIFY`'s operand: 0 to 8 bytes (R91). -/
def parseClassify (ops : List Byte) : Except Reject Instr :=
  if ops.length ≤ Config.frameBytes then .ok (.classify ops) else .error .wrongLength

/-- `ENCODE_FC`'s operands: a status 0..15 and two bytes (R98). -/
def parseEncodeFc : List Byte → Except Reject Instr
  | [st, bs, sep] => if hiNibble st = 0#4 then .ok (.encodeFc (loNibble st) bs sep) else .error .statusTooWide
  | _             => .error .wrongLength

/-- `FC.CTS`'s operand: the First frame's sender, as the image of an empty data frame. -/
def parseFcCts (ops : List Byte) : Except Reject Instr :=
  match parseFrame ops with
  | .error r => .error r
  | .ok f    => if f.rtr = false ∧ f.data = [] then .ok (.fcCts f.sender) else .error .wrongLength

/-- The decoder of event images. First bytes 0 to 7 are the event tags of R61; 8 to 13 are the model's
own images of the table's rows that are no event of R61 (log 2). -/
def decode : List Byte → Except Reject Instr
  | []       => .error .emptyImage
  | t :: ops =>
    match t.toNat with
    | 0  => parseFramed decodeRx ops
    | 1  => parseRequest .encodeReq ops
    | 2  => parseBare .expire ops
    | 3  => parseBare .clear ops
    | 4  => parseBare .reset ops
    | 5  => parseBare .evtRsvd5 ops
    | 6  => parseBare .evtRsvd6 ops
    | 7  => parseBare .evtRsvd7 ops
    | 8  => parseFramed .rx ops
    | 9  => parseFramed .rxHold ops
    | 10 => parseClassify ops
    | 11 => parseEncodeFc ops
    | 12 => parseFcCts ops
    | 13 => parseRequest .req ops
    | _  => .error .unassignedTag

/-! ### The encoder -/

/-- The image of an RX event with this frame: event tag 0 (R61). -/
def rxImage (f : CanFrame) : List Byte := 0#8 :: frameImage f

/-- The image of an instruction. -/
def encode : Instr → List Byte
  | .rxSf src len rest        => rxImage (dataFrame src (pciSf len :: rest))
  | .rxSfLenRsvd src low rest => rxImage (dataFrame src (pciSfLenRsvd low :: rest))
  | .rxFf src high rest       => rxImage (dataFrame src (pciFf high :: rest))
  | .rxCf src sn rest         => rxImage (dataFrame src (pciCf sn :: rest))
  | .rxFc src status rest     => rxImage (dataFrame src (pciFc status :: rest))
  | .rxPciRsvd47 src low rest => rxImage (dataFrame src (pciRsvd47 low :: rest))
  | .rxPciRsvd8F src low rest => rxImage (dataFrame src (pciRsvd8F low :: rest))
  | .rxEmpty src              => rxImage (dataFrame src [])
  | .rxRtr src data           => rxImage { id := src.id, extended := src.extended, rtr := true, data := data }
  | .rxHold f                 => 9#8 :: frameImage f
  | .rx f                     => 8#8 :: frameImage f
  | .encodeReq mode pid extra => 1#8 :: requestImage mode pid extra
  | .expire                   => [2#8]
  | .clear                    => [3#8]
  | .reset                    => [4#8]
  | .evtRsvd5                 => [5#8]
  | .evtRsvd6                 => [6#8]
  | .evtRsvd7                 => [7#8]
  | .classify data            => 10#8 :: data
  | .encodeFc status bs sep   => [11#8, 0#4 ++ status, bs, sep]
  | .fcCts src                => 12#8 :: frameImage (dataFrame src [])
  | .req mode pid extra       => 13#8 :: requestImage mode pid extra

/-! ### Words of the opcode table -/

/-- The low `n` bytes of a number, least significant first. -/
def wordBytes : Nat → Nat → List Byte
  | 0, _     => []
  | n + 1, w => BitVec.ofNat 8 w :: wordBytes n (w / 256)

/-- A byte list with zeros added up to `n` bytes. -/
def padZeros (n : Nat) (bs : List Byte) : List Byte := bs ++ List.replicate (n - bs.length) 0#8

/-- `30 00 00 CC CC CC CC CC` as the table's one 64-bit row writes it, byte 0 most significant. -/
def ctsWord : Nat := 0x300000CCCCCCCCCC

/-- The image of the event a word of the opcode table stands for, all operands the word does not give
being zero (log 3). A word 1..7 is an event tag (R61); any other word is the data of a received frame,
its first byte the PCI byte, in an RX event; the 64-bit word of `FC.CTS` is that row. -/
def tableImage (nbits w : Nat) : List Byte :=
  let bytes := wordBytes (nbits / 8) w
  if nbits = 64 ∧ w = ctsWord then encode (.fcCts { id := 0#29, extended := false })
  else if w % 256 = 1 then 1#8 :: padZeros 2 (bytes.drop 1)
  else if 2 ≤ w % 256 ∧ w % 256 ≤ 7 then [BitVec.ofNat 8 w]
  else rxImage { id := 0#29, extended := false, rtr := false, data := padZeros 8 (bytes.take 8) }

/-- The instruction the decoder reads from a word of the opcode table (log 3). -/
def decodeTableWord (nbits w : Nat) : Option Instr :=
  match decode (tableImage nbits w) with
  | .ok i    => some i
  | .error _ => none

end Sys2Proof
end

