-- ==== Sys2Proof/Machine/State.lean ====
section
/-! DEFINITION. The state of ITPB (10_state.md) with the environment's part of it (R33), its outputs (R80), the reasons a step can stop, and the state after reset (R34). -/

namespace Sys2Proof.Machine

/-- The error causes (R75, R180). The name is the spec's; `Cause.code` gives the number. -/
inductive Cause where
  /-- Code 1: request payload malformed before send. Never latched. -/
  | encodeError
  /-- Code 2: the per-frame deadline passed. -/
  | timeoutError
  /-- Code 3: `ProtocolError(SequenceMismatch)`. -/
  | sequenceMismatch
  /-- Code 4: `ProtocolError(InvalidPciType)`. -/
  | invalidPciType
  /-- Code 5: `ProtocolError(SingleLengthInvalid)`. -/
  | singleLengthInvalid
  /-- Code 6: `ProtocolError(Overflow)`. -/
  | overflow
  /-- Code 7: `ProtocolError(FrameTooShort)`. -/
  | frameTooShort
  deriving DecidableEq, Repr

/-- The result of a classification (R63 to R66, R91). -/
inductive IsoTpFrame where
  | single (length : Nibble) (data : List Byte)
  | first (totalLength : Count) (data : List Byte)
  | consecutive (sequence : Nibble) (data : List Byte)
  | flowControl (status : Nibble) (blockSize separation : Byte)
  deriving DecidableEq, Repr

/-- The output event of a step (R80). -/
inductive Output where
  /-- Kind 0: the step was silent. -/
  | none
  /-- Kind 1: hand a frame to the adapter's `transmit`. -/
  | tx (frame : CanFrame)
  /-- Kind 2: a whole response payload for the host. -/
  | deliver (sourceId : Identifier) (extended : Bool) (payload : List Byte)
  /-- Kind 3: a failure for the host. -/
  | error (cause : Cause)
  deriving DecidableEq, Repr

/-- What the combinational codec unit shows after a function of it was evaluated (R2, R91, R98). The
model's own field: the spec gives the functions a result and no register (log 8). -/
inductive CodecOut where
  | none
  | variant (v : IsoTpFrame)
  | bytes (data : List Byte)
  | frame (f : CanFrame)
  | failed (cause : Cause)
  deriving DecidableEq, Repr

/-- The reassembly buffer `S.buf[0 .. 4094]` (R22, R40): the bytes that hold a value, by address. An
address that is not listed holds no value (log 16). -/
abbrev Memory := List Host.Cell

/-- The canonical form: addresses strictly rising, all inside the buffer. -/
abbrev Memory.wf (m : Memory) : Prop :=
  m.Pairwise (fun p q => p.1 < q.1) ∧ ∀ p ∈ m, p.1 < Config.bufBytes

/-- The registers that hold a value in `AwaitingConsecutive` (R28). -/
structure Receiving where
  /-- `S.expectedLength` (R21). -/
  expectedLength : Count
  /-- `S.buf` (R22). -/
  buf            : Memory
  /-- `S.bufLen` (R22). -/
  bufLen         : Count
  /-- `S.nextSequence` (R23). -/
  nextSequence   : Nibble
  /-- `S.peerId` (R25). -/
  peerId         : Identifier
  /-- `S.peerExt` (R25). -/
  peerExt        : Bool
  /-- `S.deadline` (R24, R145). -/
  deadline       : Time
  deriving DecidableEq, Repr

/-- The registers that hold a value in `Complete` (R27, R28). -/
structure Completed where
  expectedLength : Count
  buf            : Memory
  bufLen         : Count
  peerId         : Identifier
  peerExt        : Bool
  deriving DecidableEq, Repr

/-- The reassembler state `S` as the tagged variant of R28: a field that holds no value in a state is
no field of that state. -/
inductive Session where
  | idle
  | awaitingConsecutive (r : Receiving)
  | complete (c : Completed)
  /-- `S.err` holds the cause (R26). -/
  | aborted (err : Cause)
  deriving DecidableEq, Repr

/-- The whole state: the block (`session`), its static configuration, the output of the last step, and
the environment's part. -/
structure State where
  /-- The reassembler state `S` (R20 to R28). -/
  session  : Session
  /-- The static configuration (R30). -/
  cfg      : Cfg
  /-- The output event of the last step (R80). -/
  out      : Output
  /-- The codec function evaluated in the last step, if any (the model's own, log 8). -/
  codec    : CodecOut
  /-- Whether the last presented event had a step (the model's own, log 9). -/
  accepted : Bool
  /-- The images of the events the environment will present, the next one first (log 4). -/
  inputs   : List (List Byte)
  /-- Frames that were not accepted and stay with the adapter, oldest first (R33, R111). -/
  rxQueue  : List CanFrame
  /-- TX frames the adapter has taken and not yet put on the bus, oldest first (R33). -/
  txQueue  : List CanFrame
  /-- The number of step boundaries so far: the index of the free clock (log 10). -/
  tick     : Nat
  deriving DecidableEq, Repr

/-- The reasons the machine stops with a fault. Safe: the model stops where the hardware would show
any bits; both arise only in states that no run reaches (log 17). -/
inductive Fault where
  /-- Raised by `RX.CF` when it delivers a buffer byte that holds no value (R44, U7). Safe. -/
  | bufferByteHoldsNoValue
  /-- Raised by `RX.FF` and `RX.CF` for a write past address 4094 (R44, R52). Safe. -/
  | bufferAddressOutOfRange
  deriving DecidableEq, Repr

/-- The reasons a step is refused. -/
inductive Refusal where
  /-- Raised by `exec` for an instruction without a meaning. Safe. -/
  | notModelled (mnemonic : String)
  /-- Raised by `step` for bytes that are no event image: not a `CanFrame` (R60, U9) or no event (log 1). Safe. -/
  | notAnEvent (reason : Reject)
  deriving DecidableEq, Repr

/-- The answer of a meaning. -/
abbrev Answer := Host.Outcome State Fault Refusal

/-- The machine right after reset (R34, R210): `Idle`, nothing else of `S` holding a value, the default
configuration, no output pending, nothing presented yet. -/
def State.reset : State :=
  { session := .idle, cfg := Cfg.default, out := .none, codec := .none, accepted := true,
    inputs := [], rxQueue := [], txQueue := [], tick := 0 }

end Sys2Proof.Machine
end

