-- ==== Sys2Proof/Machine/Flags.lean ====
section
/-! DEFINITION. The status signals of ITPB, all functions of `S.st` (R20, R24, R29), the numbers of states, causes and outputs (R20, R75, R80), the host's readout (R26, R27), and the comparison of the concrete timer binding (R145). -/

namespace Sys2Proof.Machine

/-- `S.st` as its 2-bit register (R20). -/
def Session.st : Session → BitVec 2
  | .idle                  => 0#2
  | .awaitingConsecutive _ => 1#2
  | .complete _            => 2#2
  | .aborted _             => 3#2

/-- `rx_ready` (R29): `Idle` or `AwaitingConsecutive`. -/
def Session.rxReady : Session → Bool
  | .idle                  => true
  | .awaitingConsecutive _ => true
  | .complete _            => false
  | .aborted _             => false

/-- `busy` (R29). -/
def Session.busy : Session → Bool
  | .idle                  => false
  | .awaitingConsecutive _ => true
  | .complete _            => false
  | .aborted _             => false

/-- `done` (R29). -/
def Session.done : Session → Bool
  | .idle                  => false
  | .awaitingConsecutive _ => false
  | .complete _            => true
  | .aborted _             => false

/-- `error` (R29). -/
def Session.error : Session → Bool
  | .idle                  => false
  | .awaitingConsecutive _ => false
  | .complete _            => false
  | .aborted _             => true

/-- `S.deadlineArmed = busy` (R24, R29). -/
def Session.deadlineArmed (s : Session) : Bool := s.busy

/-- The 4-bit code of a cause (R75). -/
def Cause.code : Cause → BitVec 4
  | .encodeError         => 1#4
  | .timeoutError        => 2#4
  | .sequenceMismatch    => 3#4
  | .invalidPciType      => 4#4
  | .singleLengthInvalid => 5#4
  | .overflow            => 6#4
  | .frameTooShort       => 7#4

/-- The 2-bit kind of an output event (R80). -/
def Output.kind : Output → BitVec 2
  | .none          => 0#2
  | .tx _          => 1#2
  | .deliver _ _ _ => 2#2
  | .error _       => 3#2

/-- `S.err` as its 4-bit register; it holds a value only in `Aborted` (R26). -/
def Session.errCode : Session → Option (BitVec 4)
  | .idle                  => none
  | .awaitingConsecutive _ => none
  | .complete _            => none
  | .aborted err           => some err.code

/-- The deadline has passed: the difference, read as a signed number, is not negative (R145). The
formula is the spec's from general knowledge, GK10. -/
def deadlinePassed {w : Nat} (now deadline : BitVec w) : Bool := decide (0 ≤ (now - deadline).toInt)

/-- The concrete timer raises EXPIRE at this boundary: a deadline is armed and has passed (R145). The
step does not use it: EXPIRE is a free input (R140, log 11). -/
def State.timerDue (s : State) : Bool :=
  match s.session with
  | .idle                  => false
  | .awaitingConsecutive r => deadlinePassed (Config.clock s.tick) r.deadline
  | .complete _            => false
  | .aborted _             => false

end Sys2Proof.Machine
end

