-- ==== Sys2Proof/Machine/Operands.lean ====
section
/-! DEFINITION. The operand forms of the frames: field extraction and classification (R63 to R72, R91 to R97), the flow-control layout (R66, R98), the request layout (R67, R90), and the identifier of a flow-control frame (R5, R45). -/

namespace Sys2Proof.Machine

/-! ### Classification: `data` is the PCI byte followed by `rest` -/

/-- `CLASSIFY.SF` on the low nibble `len` and the bytes after the PCI byte (R92). -/
def classifySf (len : Nibble) (rest : List Byte) : Except Cause IsoTpFrame :=
  if len.toNat > Config.sfMax then .error .singleLengthInvalid
  else if rest.length < len.toNat then .error .frameTooShort
  else .ok (.single len (rest.take len.toNat))

/-- The First frame's length: the low nibble of byte 0 is bits 11..8, byte 1 is bits 7..0 (R68). -/
def totalLength (high : Nibble) (low : Byte) : Count := high ++ low

/-- `CLASSIFY.FF` on the low nibble and the bytes after the PCI byte (R93). -/
def classifyFf (high : Nibble) (rest : List Byte) : Except Cause IsoTpFrame :=
  match rest with
  | []       => .error .frameTooShort
  | low :: d =>
    if d.length < Config.ffData then .error .frameTooShort
    else .ok (.first (totalLength high low) (d.take Config.ffData))

/-- `CLASSIFY.CF` on the low nibble and the bytes after the PCI byte (R94). -/
def classifyCf (sn : Nibble) (rest : List Byte) : Except Cause IsoTpFrame :=
  if rest.length < Config.cfData then .error .frameTooShort
  else .ok (.consecutive sn (rest.take Config.cfData))

/-- `CLASSIFY.FC` on the low nibble and the bytes after the PCI byte (R95). -/
def classifyFc (status : Nibble) (rest : List Byte) : Except Cause IsoTpFrame :=
  match rest with
  | bs :: sep :: _ => .ok (.flowControl status bs sep)
  | _              => .error .frameTooShort

/-- `CLASSIFY` (R91): the high nibble of byte 0 selects the variant. -/
def classify (data : List Byte) : Except Cause IsoTpFrame :=
  match data with
  | []        => .error .frameTooShort
  | b :: rest =>
    if hiNibble b = 0#4 then classifySf (loNibble b) rest
    else if hiNibble b = 1#4 then classifyFf (loNibble b) rest
    else if hiNibble b = 2#4 then classifyCf (loNibble b) rest
    else if hiNibble b = 3#4 then classifyFc (loNibble b) rest
    else .error .invalidPciType

/-! ### Transmit formats -/

/-- `ENCODE_FC` (R98): `0x30 | status`, block size, separation time, then filler up to 8 bytes. -/
def encodeFcData (filler : Byte) (status : Nibble) (blockSize separation : Byte) : List Byte :=
  pciFc status :: blockSize :: separation :: List.replicate (Config.fcLen - 3) filler

/-- The request payload before padding: `[mode, pid?, ...extraData]` (R67, R90). -/
def requestPayload (mode : Byte) (pid : Option Byte) (extra : List Byte) : List Byte :=
  mode :: (pid.toList ++ extra)

/-- The request's 8 data bytes: the payload right-padded with `0xCC` (R67). -/
def requestData (payload : List Byte) : List Byte :=
  payload ++ List.replicate (Config.frameBytes - payload.length) Config.fill

/-- `encodeRequest` (R90): the request frame, or `EncodeError` for a payload of more than 8 bytes. -/
def encodeRequest (cfg : Cfg) (mode : Byte) (pid : Option Byte) (extra : List Byte) : Except Cause CanFrame :=
  if (requestPayload mode pid extra).length > Config.frameBytes then .error .encodeError
  else .ok { id := cfg.reqId, extended := cfg.reqExt, rtr := false, data := requestData (requestPayload mode pid extra) }

/-! ### The flow-control identifier -/

/-- An 11-bit identifier in the 29-bit register, bits 28..11 zero (R25). -/
def narrow (id : Identifier) : Identifier := (id.setWidth 11).setWidth 29

/-- The default of `FC_ID`: `(id - 8) mod 2^11` for an 11-bit identifier (PRESUMED by the spec, GK2; log 12), OPEN for a 29-bit one (R5, R126 (f)). -/
def defaultFcId (src : Sender) : Identifier :=
  if src.extended then Config.fcIdExt src.id else narrow (src.id - 8#29)

/-- The entry of the integrator's table for a sender. -/
def FcIdEntry.lookup (src : Sender) : List FcIdEntry → Option Identifier
  | []     => none
  | e :: t => if e.extended = src.extended ∧ e.peer = src.id then some e.fc else FcIdEntry.lookup src t

/-- `FC_ID(id, extended)` (R5): the integrator's table over the default, kept to the width the flag selects. -/
def fcId (cfg : Cfg) (src : Sender) : Identifier :=
  match FcIdEntry.lookup src cfg.fcIds with
  | none    => defaultFcId src
  | some id => if src.extended then id else narrow id

/-- The flow-control frame answering a First frame from `src`: `ENCODE_FC(ContinueToSend, 0, 0)` addressed to the responder (R115, R98). -/
def ctsFrame (cfg : Cfg) (src : Sender) : CanFrame :=
  { id := fcId cfg src, extended := src.extended, rtr := false,
    data := encodeFcData cfg.fcFill Config.continueToSend Config.fcBlockSize Config.fcSeparation }

end Sys2Proof.Machine
end

