-- ==== Sys2Proof/Machine/Ops.lean ====
section
/-! DEFINITION. The named operations the meanings share: the buffer's primitives (R44), outputs (R80), the abort procedure (R188) and the return from it (R141, R190), the hold (R111), the deadline (R144, R145), and the steps of an RX event on a classified frame (R110, R114 to R120). -/

namespace Sys2Proof.Machine

/-! ### The buffer: one byte, then `MemRead` and `MemWrite` (R44) -/

/-- The byte at an address, if it holds a value (R22). -/
def Memory.read : Memory → Nat → Option Byte
  | [], _          => none
  | (a, v) :: m, x => if a = x then some v else Memory.read m x

/-- The buffer after one byte is written, in canonical form. -/
def Memory.write : Memory → Nat → Byte → Memory
  | [], x, v           => [(x, v)]
  | (a, w) :: m, x, v  =>
    if x < a then (x, v) :: (a, w) :: m
    else if x = a then (x, v) :: m
    else (a, w) :: Memory.write m x v

/-- The buffer after consecutive bytes are written from an address on. -/
def Memory.writeBytes : Memory → Nat → List Byte → Memory
  | m, _, []      => m
  | m, a, v :: vs => Memory.writeBytes (Memory.write m a v) (a + 1) vs

/-- `n` bytes from an address on, if each holds a value. -/
def Memory.readBytes (m : Memory) : Nat → Nat → Option (List Byte)
  | _, 0     => some []
  | a, n + 1 =>
    match Memory.read m a, Memory.readBytes m (a + 1) n with
    | some v, some vs => some (v :: vs)
    | _, _            => none

/-- `MemWrite(addr, n, v)`: requires `addr + n ≤ 4095` (R44). -/
def memWrite (m : Memory) (addr : Nat) (vs : List Byte) : Option Memory :=
  if addr + vs.length ≤ Config.bufBytes then some (Memory.writeBytes m addr vs) else none

/-- `MemRead(addr, n)`: requires `addr + n ≤ S.bufLen` (R44). -/
def memRead (m : Memory) (bufLen addr n : Nat) : Option (List Byte) :=
  if addr + n ≤ bufLen then Memory.readBytes m addr n else none

/-- The readable byte of `S.buf` at an address: none where the state gives the buffer no value, and at addresses `≥ S.bufLen` (R22, R28). -/
def Session.readByte (s : Session) (addr : Nat) : Option Byte :=
  match s with
  | .idle                  => none
  | .awaitingConsecutive r => if addr < r.bufLen.toNat then Memory.read r.buf addr else none
  | .complete c            => if addr < c.bufLen.toNat then Memory.read c.buf addr else none
  | .aborted _             => none

/-- The host's readout of a completed session: source identifier, its flag, and `MemRead(0, S.expectedLength)` (R27). -/
def Session.heldResult (s : Session) : Option (Identifier × Bool × List Byte) :=
  match s with
  | .idle                  => none
  | .awaitingConsecutive _ => none
  | .complete c            => (memRead c.buf c.bufLen.toNat 0 c.expectedLength.toNat).map fun p => (c.peerId, c.peerExt, p)
  | .aborted _             => none

/-! ### Outputs -/

/-- The state with no output of this step yet. -/
def quiet (s : State) : State := { s with out := .none, codec := .none, accepted := true }

/-- `emit X` (R8, R80); a `TX` frame is handed to the adapter in the same step (R33). -/
def emit (o : Output) (s : State) : State :=
  match o with
  | .none          => quiet s
  | .tx f          => { quiet s with out := .tx f, txQueue := s.txQueue ++ [f] }
  | .deliver i e p => { quiet s with out := .deliver i e p }
  | .error c       => { quiet s with out := .error c }

/-- The codec unit shows the result of a function; no output event (R2, R99; log 8). -/
def showCodec (c : CodecOut) (s : State) : State := { quiet s with codec := c }

/-- `ignore`: no state change and no output (R8). -/
def ignoreEvent (s : State) : Answer := .next (quiet s)

/-- An event that has no step: nothing changes, nothing is emitted (R140, R146; log 6, log 7). -/
def noStep (s : State) : Answer := .next { quiet s with accepted := false }

/-- The frame is not accepted: `S` does not change, nothing is emitted, the frame stays with the adapter (R111; log 5). -/
def holdFrame (f : CanFrame) (s : State) : Answer :=
  .next { quiet s with accepted := false, rxQueue := s.rxQueue ++ [f] }

/-! ### Taking an error and returning from it -/

/-- The abort procedure: what `raise <cause>` does in a reassembler step (R188). -/
def raise (c : Cause) (s : State) : Answer := .next { emit (.error c) s with session := .aborted c }

/-- The destruction of the session by its owner: `S.st <- Idle`, nothing restored, no output (R141, R190). -/
def discardSession (s : State) : State := { quiet s with session := .idle }

/-! ### The deadline -/

/-- The deadline armed in this step: `(now + FRAME_TIMEOUT) mod 2^TIME_BITS` (R144, R145). -/
def armedDeadline (s : State) : Time := Config.clock s.tick + BitVec.ofNat Config.timeBits Config.frameTimeout

/-! ### An RX event on a classified frame -/

/-- A Single frame: delivered at once, the session untouched (R114). -/
def receiveSingle (src : Sender) (d : List Byte) (s : State) : Answer :=
  .next (emit (.deliver src.id src.extended d) s)

/-- The session a First frame opens, its six bytes already in `buf` (R115). -/
def openedSession (src : Sender) (total : Count) (buf : Memory) (s : State) : Session :=
  .awaitingConsecutive
    { expectedLength := total, buf := buf, bufLen := BitVec.ofNat 12 Config.ffData,
      nextSequence := Config.seqFirst, peerId := src.id, peerExt := src.extended,
      deadline := armedDeadline s }

/-- A First frame: `Overflow` below 6 bytes (R116), else a new session, whatever session there was, and one flow-control frame (R115, R124). -/
def receiveFirst (src : Sender) (total : Count) (d : List Byte) (s : State) : Answer :=
  if total.toNat < Config.ffData then raise .overflow s
  else
    match memWrite [] 0 d with
    | none     => .fault .bufferAddressOutOfRange
    | some buf => .next { emit (.tx (ctsFrame s.cfg src)) s with session := openedSession src total buf s }

/-- How many of a Consecutive frame's bytes are appended: `min(7, S.expectedLength - S.bufLen)` (R118, R126 (b)). -/
def appendCount (r : Receiving) : Nat := min Config.cfData (r.expectedLength.toNat - r.bufLen.toNat)

/-- The address a Consecutive frame's bytes are appended at: `S.bufLen` (R118, R43). -/
def appendAddr (r : Receiving) : Nat := r.bufLen.toNat

/-- The session after an accepted Consecutive frame that does not complete it (R118). -/
def continuedSession (r : Receiving) (buf : Memory) (newLen : Nat) (s : State) : Session :=
  .awaitingConsecutive
    { r with buf := buf, bufLen := BitVec.ofNat 12 newLen, nextSequence := r.nextSequence + 1#4,
             deadline := armedDeadline s }

/-- The completed session (R27, R118). -/
def completedSession (r : Receiving) (buf : Memory) (newLen : Nat) : Session :=
  .complete { expectedLength := r.expectedLength, buf := buf, bufLen := BitVec.ofNat 12 newLen,
              peerId := r.peerId, peerExt := r.peerExt }

/-- A Consecutive frame in sequence: append, then complete and deliver, or go on (R118, R122). -/
def acceptConsecutive (r : Receiving) (d : List Byte) (s : State) : Answer :=
  match memWrite r.buf (appendAddr r) (d.take (appendCount r)) with
  | none     => .fault .bufferAddressOutOfRange
  | some buf =>
    let newLen := r.bufLen.toNat + appendCount r
    if newLen = r.expectedLength.toNat then
      match memRead buf newLen 0 r.expectedLength.toNat with
      | none         => .fault .bufferByteHoldsNoValue
      | some payload =>
        .next { emit (.deliver r.peerId r.peerExt payload) s with session := completedSession r buf newLen }
    else .next { quiet s with session := continuedSession r buf newLen s }

/-- A Consecutive frame: mismatch aborts (R117), a match is accepted (R118), no session means ignored (R119). -/
def receiveConsecutive (sn : Nibble) (d : List Byte) (s : State) : Answer :=
  match s.session with
  | .awaitingConsecutive r =>
    if sn ≠ r.nextSequence then raise .sequenceMismatch s else acceptConsecutive r d s
  | .idle       => ignoreEvent s
  | .complete _ => ignoreEvent s
  | .aborted _  => ignoreEvent s

/-- What an RX event does with its frame's classification (R110, R113). -/
def receiveClassified (src : Sender) (c : Except Cause IsoTpFrame) (s : State) : Answer :=
  match c with
  | .error e                 => raise e s
  | .ok (.single _ d)        => receiveSingle src d s
  | .ok (.first total d)     => receiveFirst src total d s
  | .ok (.consecutive sn d)  => receiveConsecutive sn d s
  | .ok (.flowControl _ _ _) => ignoreEvent s

/-- The first test of every RX event: in a terminal state the frame is not accepted (R110, R111, R186 (1)). -/
def whenReady (f : CanFrame) (s : State) (a : Answer) : Answer :=
  if s.session.rxReady then a else holdFrame f s

end Sys2Proof.Machine
end

