-- ==== Sys2Proof/Machine/Codec.lean ====
section
/-! DEFINITION. The meanings of the codec unit's rows (40_codec.md): ENCODE_REQ, and the functions CLASSIFY, ENCODE_FC, FC.CTS and REQ, whose result the codec unit shows (log 8). -/

namespace Sys2Proof.Machine

/-- `ENCODE_REQ` (R90): a TX of the request, or `ERROR(EncodeError)`, which is not latched. -/
def execEncodeReq (mode : Byte) (pid : Option Byte) (extra : List Byte) (s : State) : Answer :=
  match encodeRequest s.cfg mode pid extra with
  | .error c => .next (emit (.error c) s)
  | .ok f    => .next (emit (.tx f) s)

/-- `CLASSIFY` (R91): a function, no state read or written. -/
def execClassify (data : List Byte) (s : State) : Answer :=
  match classify data with
  | .error c => .next (showCodec (.failed c) s)
  | .ok v    => .next (showCodec (.variant v) s)

/-- `ENCODE_FC` (R98): a function, no state read or written. -/
def execEncodeFc (status : Nibble) (blockSize separation : Byte) (s : State) : Answer :=
  .next (showCodec (.bytes (encodeFcData s.cfg.fcFill status blockSize separation)) s)

/-- `FC.CTS` (R98, R115): the frame RX.FF transmits, as a function of the First frame's sender. Nothing is transmitted (R121). -/
def execFcCts (src : Sender) (s : State) : Answer := .next (showCodec (.frame (ctsFrame s.cfg src)) s)

/-- `REQ` (R67, R90): the request frame, as a function of its operands. Nothing is transmitted. -/
def execReq (mode : Byte) (pid : Option Byte) (extra : List Byte) (s : State) : Answer :=
  match encodeRequest s.cfg mode pid extra with
  | .error c => .next (showCodec (.failed c) s)
  | .ok f    => .next (showCodec (.frame f) s)

end Sys2Proof.Machine
end

