-- ==== Sys2Proof/Machine/Control.lean ====
section
/-! DEFINITION. The meanings of the control rows (42_control.md): EXPIRE, CLEAR, RESET and the reserved event tags. -/

namespace Sys2Proof.Machine

/-- `EXPIRE` (R140): `TimeoutError` while the deadline is armed; elsewhere the event is not enabled and nothing happens (log 6). -/
def execExpire (s : State) : Answer :=
  if s.session.deadlineArmed then raise .timeoutError s else noStep s

/-- `CLEAR` (R141). -/
def execClear (s : State) : Answer := .next (discardSession s)

/-- `RESET` (R142): `S` takes its reset value; the configuration and the environment keep theirs (R34; log 24). -/
def execReset (s : State) : Answer := .next { quiet s with session := State.reset.session }

/-- Reserved event tag 5: no state change, no output (R146; log 7). -/
def execEvtRsvd5 (s : State) : Answer := noStep s

/-- Reserved event tag 6: no state change, no output (R146; log 7). -/
def execEvtRsvd6 (s : State) : Answer := noStep s

/-- Reserved event tag 7: no state change, no output (R146; log 7). -/
def execEvtRsvd7 (s : State) : Answer := noStep s

end Sys2Proof.Machine
end

