-- ==== Sys2Proof/Machine/Receive.lean ====
section
/-! DEFINITION. The meanings of the RX rows (41_reassembler.md). Each begins with the first test of R110: in a terminal state the frame is held. -/

namespace Sys2Proof.Machine

/-- `RX.SF` (R114; classification R92). -/
def execRxSf (src : Sender) (len : BitVec 3) (rest : List Byte) (s : State) : Answer :=
  whenReady (dataFrame src (pciSf len :: rest)) s (receiveClassified src (classifySf (0#1 ++ len) rest) s)

/-- `RX.SF_LEN_RSVD` (R113, R92): the Single length is 8..15. -/
def execRxSfLenRsvd (src : Sender) (low : BitVec 3) (rest : List Byte) (s : State) : Answer :=
  whenReady (dataFrame src (pciSfLenRsvd low :: rest)) s (raise .singleLengthInvalid s)

/-- `RX.FF` (R115, R116, R124; classification R93). -/
def execRxFf (src : Sender) (high : Nibble) (rest : List Byte) (s : State) : Answer :=
  whenReady (dataFrame src (pciFf high :: rest)) s (receiveClassified src (classifyFf high rest) s)

/-- `RX.CF` (R117, R118, R119; classification R94). -/
def execRxCf (src : Sender) (sn : Nibble) (rest : List Byte) (s : State) : Answer :=
  whenReady (dataFrame src (pciCf sn :: rest)) s (receiveClassified src (classifyCf sn rest) s)

/-- `RX.FC` (R120; classification R95). -/
def execRxFc (src : Sender) (status : Nibble) (rest : List Byte) (s : State) : Answer :=
  whenReady (dataFrame src (pciFc status :: rest)) s (receiveClassified src (classifyFc status rest) s)

/-- `RX.PCI_RSVD_4_7` (R113, R96). -/
def execRxPciRsvd47 (src : Sender) (low : BitVec 6) (rest : List Byte) (s : State) : Answer :=
  whenReady (dataFrame src (pciRsvd47 low :: rest)) s (raise .invalidPciType s)

/-- `RX.PCI_RSVD_8_F` (R113, R96). -/
def execRxPciRsvd8F (src : Sender) (low : BitVec 7) (rest : List Byte) (s : State) : Answer :=
  whenReady (dataFrame src (pciRsvd8F low :: rest)) s (raise .invalidPciType s)

/-- `RX.EMPTY` (R113, R97). -/
def execRxEmpty (src : Sender) (s : State) : Answer :=
  whenReady (dataFrame src []) s (raise .frameTooShort s)

/-- `RX.RTR` (R112): ignored, the data not classified. -/
def execRxRtr (src : Sender) (data : List Byte) (s : State) : Answer :=
  whenReady { id := src.id, extended := src.extended, rtr := true, data := data } s (ignoreEvent s)

/-- R110 after its first test: a remote frame is ignored, any other is classified. -/
def receiveFrame (f : CanFrame) (s : State) : Answer :=
  if f.rtr then ignoreEvent s else receiveClassified f.sender (classify f.data) s

/-- `RX.HOLD` (R111): held in a terminal state. Where `S.st` is not terminal the row does not match, and the RX event goes on to the tests after it (R186; log 18). -/
def execRxHold (f : CanFrame) (s : State) : Answer := whenReady f s (receiveFrame f s)

/-- `RX` (R110): the dispatch. -/
def execRx (f : CanFrame) (s : State) : Answer := whenReady f s (receiveFrame f s)

end Sys2Proof.Machine
end

