-- ==== Sys2Proof/Machine/Dispatch.lean ====
section
/-! DEFINITION. The dispatch: one arm for each constructor of Instr. -/

namespace Sys2Proof.Machine

def exec (i : Instr) (s : State) : Host.Outcome State Fault Refusal :=
  match i with
  | .rxSf src len rest => Sys2Proof.Machine.execRxSf src len rest s
  | .rxSfLenRsvd src low rest => Sys2Proof.Machine.execRxSfLenRsvd src low rest s
  | .rxFf src high rest => Sys2Proof.Machine.execRxFf src high rest s
  | .rxCf src sn rest => Sys2Proof.Machine.execRxCf src sn rest s
  | .rxFc src status rest => Sys2Proof.Machine.execRxFc src status rest s
  | .rxPciRsvd47 src low rest => Sys2Proof.Machine.execRxPciRsvd47 src low rest s
  | .rxPciRsvd8F src low rest => Sys2Proof.Machine.execRxPciRsvd8F src low rest s
  | .rxEmpty src => Sys2Proof.Machine.execRxEmpty src s
  | .rxRtr src data => Sys2Proof.Machine.execRxRtr src data s
  | .rxHold f => Sys2Proof.Machine.execRxHold f s
  | .rx f => Sys2Proof.Machine.execRx f s
  | .encodeReq mode pid extra => Sys2Proof.Machine.execEncodeReq mode pid extra s
  | .expire => Sys2Proof.Machine.execExpire s
  | .clear => Sys2Proof.Machine.execClear s
  | .reset => Sys2Proof.Machine.execReset s
  | .evtRsvd5 => Sys2Proof.Machine.execEvtRsvd5 s
  | .evtRsvd6 => Sys2Proof.Machine.execEvtRsvd6 s
  | .evtRsvd7 => Sys2Proof.Machine.execEvtRsvd7 s
  | .classify data => Sys2Proof.Machine.execClassify data s
  | .encodeFc status bs sep => Sys2Proof.Machine.execEncodeFc status bs sep s
  | .fcCts src => Sys2Proof.Machine.execFcCts src s
  | .req mode pid extra => Sys2Proof.Machine.execReq mode pid extra s

end Sys2Proof.Machine
end

