-- ==== Sys2Proof/Machine/Fetch.lean ====
section
/-! DEFINITION. What happens at a step boundary: the environment's next move, read from State (R9, R10, R33, R47; log 4, log 19). -/

namespace Sys2Proof.Machine

/-- The environment's move at a step boundary. -/
inductive Move where
  /-- An event is presented. -/
  | event (i : Instr) (s : State)
  /-- Bytes are presented that are no event image. -/
  | rejected (r : Reject)
  /-- No event is presented. -/
  | noEvent (s : State)
  deriving DecidableEq, Repr

/-- One more step boundary has been reached. -/
def atBoundary (s : State) : State := { s with tick := s.tick + 1 }

/-- With no event scripted: the adapter hands over its oldest held frame if the block is ready, else it puts its oldest TX frame on the bus, else nothing happens (log 19). -/
def adapterMove (s : State) : Move :=
  match s.session.rxReady, s.rxQueue with
  | true, f :: fs => .event (.rx f) { s with rxQueue := fs }
  | _, _          => .noEvent { quiet s with txQueue := s.txQueue.tail }

/-- The next event: the first scripted image, or the adapter's own move. -/
def fetch (s : State) : Move :=
  match s.inputs with
  | []           => adapterMove (atBoundary s)
  | img :: later =>
    match decode img with
    | .ok i    => .event i { atBoundary s with inputs := later }
    | .error r => .rejected r

end Sys2Proof.Machine
end

