-- ==== Sys2Proof/Machine/Step.lean ====
section
/-! DEFINITION. One step: the environment's next event, processed to completion (R9). -/

namespace Sys2Proof.Machine

/-- One step of the machine (R9, R47). -/
def step (s : State) : Host.Outcome State Fault Refusal :=
  match fetch s with
  | .event i t  => exec i t
  | .rejected r => .refused (.notAnEvent r)
  | .noEvent t  => .next t

/-- The state in which the event a word of the opcode table stands for is the next one presented (log 3, log 4). -/
def State.withFetchWord (s : State) (nbits w : Nat) : State := { s with inputs := tableImage nbits w :: s.inputs }

end Sys2Proof.Machine
end

