-- ==== Sys2Proof/Machine/HostBoundary.lean ====
section
/-! DEFINITION. The host's side of the boundary (44_host_boundary.md): the identifier filter, the check of a delivered payload, and which events the environment may raise when host and timer keep to R160 to R167. The step assumes none of it: every event may come at any time (log 21). -/

namespace Sys2Proof.Machine

/-! ### Filter and validation -/

/-- The host's identifier filter (R161): only frames of the response range are presented. -/
def passesFilter (f : CanFrame) : Bool :=
  if f.extended then
    decide (Config.respLoExt.toNat ≤ f.id.toNat) && decide (f.id.toNat ≤ Config.respHiExt.toNat)
  else decide (Config.respLo.toNat ≤ f.id.toNat) && decide (f.id.toNat ≤ Config.respHi.toNat)

/-- The response mode byte answering a request mode: `mode + 0x40` as a mathematical integer, so that no byte answers a mode of 0xC0 or more (R162, R6). -/
def isResponseMode (mode b : Byte) : Bool := decide (b.toNat = mode.toNat + 0x40)

/-- The host's check of a delivered payload against the request in flight: response mode in byte 0, then PID in byte 1 if one was requested; a payload too short does not match (R162; D27). -/
def responseMatches (mode : Byte) (pid : Option Byte) (payload : List Byte) : Bool :=
  match pid, payload with
  | _, []               => false
  | none, b :: _        => isResponseMode mode b
  | some _, [_]         => false
  | some p, b :: q :: _ => isResponseMode mode b && decide (q = p)

/-! ### What the host remembers (R35, R162): no state of the block -/

/-- A request, as the operands of `ENCODE_REQ` (R90). -/
structure HostRequest where
  mode  : Byte
  pid   : Option Byte
  extra : List Byte
  deriving DecidableEq, Repr

/-- The `CLEAR` the host still owes (R162, R163, R167). -/
inductive ClearOwed where
  | nothing
  /-- After a `DELIVER` from `Complete` that did not match: clear, then go on waiting (R162). -/
  | thenWait
  /-- After a match or an `ERROR`: clear, and the request has ended (R162, R163). -/
  | thenReturn
  deriving DecidableEq, Repr

/-- The host's book: the request in flight and the `CLEAR` it owes. -/
structure HostBook where
  request : Option HostRequest
  owed    : ClearOwed
  deriving DecidableEq, Repr

/-- No request in flight, nothing owed: where one run of the block begins and ends (R168). -/
def HostBook.free : HostBook := { request := none, owed := .nothing }

/-- Why the host gives a request up of its own accord, with no output of the block to say so. -/
inductive GivenUp where
  /-- Its `timeoutMs` window has ended: `TimeoutError` (R164). -/
  | windowEnded
  /-- The adapter's `transmit` failed and the retries are used up: `TransportError` (R165). -/
  | transportError
  deriving DecidableEq, Repr

/-- One event of a run at the boundary. `givenUp` marks the `CLEAR` with which the host ends a request it gives up (R164, R165, R167). -/
structure HostMove where
  event   : Instr
  givenUp : Option GivenUp
  deriving DecidableEq, Repr

/-! ### Which event may come -/

/-- An RX event: its frame passes the filter (R161), the block is ready (R167), and no `CLEAR` is owed (R162, R163). -/
def HostBook.mayPresent (b : HostBook) (s : State) (i : Instr) : Bool :=
  match i.frame with
  | some f => passesFilter f && s.session.rxReady && decide (b.owed = .nothing)
  | none   => false

/-- An `ENCODE_REQ`: no `CLEAR` is owed (R162, R163), and no other request is in flight (R160). A new request finds the block in `Idle`, where R141's `CLEAR` before each new request leaves it (DEDUCED, log 21). DESIGN CHOICE, log 25: R165 lets a retry be a re-issued `ENCODE_REQ` and R160 forbids a second one; the same request issued again counts as that retry and is admitted, a different one is not. -/
def HostBook.mayRequest (b : HostBook) (s : State) (r : HostRequest) : Bool :=
  decide (b.owed = .nothing) &&
    match b.request with
    | none   => decide (s.session = .idle)
    | some q => decide (q = r)

/-- The event may come next when the host keeps its duties and the timer its condition (R167). `CLEAR` and `RESET` may come at any step boundary; `EXPIRE` while a deadline is armed (R140); a reserved tag names no event (R146); the codec's functions may be evaluated at any time (R99). A request that is given up is answered by `CLEAR` (R164, R165). -/
def HostBook.mayOccur (b : HostBook) (s : State) (m : HostMove) : Bool :=
  (m.givenUp.isNone || decide (m.event = .clear)) &&
    match m.event with
    | .rxSf src len rest          => b.mayPresent s (.rxSf src len rest)
    | .rxSfLenRsvd src low rest   => b.mayPresent s (.rxSfLenRsvd src low rest)
    | .rxFf src high rest         => b.mayPresent s (.rxFf src high rest)
    | .rxCf src sn rest           => b.mayPresent s (.rxCf src sn rest)
    | .rxFc src status rest       => b.mayPresent s (.rxFc src status rest)
    | .rxPciRsvd47 src low rest   => b.mayPresent s (.rxPciRsvd47 src low rest)
    | .rxPciRsvd8F src low rest   => b.mayPresent s (.rxPciRsvd8F src low rest)
    | .rxEmpty src                => b.mayPresent s (.rxEmpty src)
    | .rxRtr src data             => b.mayPresent s (.rxRtr src data)
    | .rxHold f                   => b.mayPresent s (.rxHold f)
    | .rx f                       => b.mayPresent s (.rx f)
    | .encodeReq mode pid extra   => b.mayRequest s { mode := mode, pid := pid, extra := extra }
    | .expire                     => s.session.deadlineArmed
    | .clear                      => true
    | .reset                      => true
    | .evtRsvd5                   => false
    | .evtRsvd6                   => false
    | .evtRsvd7                   => false
    | .classify _                 => true
    | .encodeFc _ _ _             => true
    | .fcCts _                    => true
    | .req _ _ _                  => true

/-! ### The book after a step -/

/-- The payload answers the request in flight (R162). -/
def HostBook.answers (b : HostBook) (payload : List Byte) : Bool :=
  match b.request with
  | none   => false
  | some r => responseMatches r.mode r.pid payload

/-- What the host makes of a step's output: an `ERROR` fails the request (R163); a matching `DELIVER`, from a Single frame or a session, ends it; one that does not match is discarded, a `CLEAR` being owed if it came from `Complete` (R162, R167). -/
def HostBook.hear (b : HostBook) (t : State) : HostBook :=
  match t.out with
  | .none          => b
  | .tx _          => b
  | .error _       => { b with owed := .thenReturn }
  | .deliver _ _ p =>
    if b.answers p then { b with owed := .thenReturn }
    else if t.session.done then { b with owed := .thenWait }
    else b

/-- A `CLEAR` pays what is owed. It ends the request after a match or an `ERROR` (R162, R163) and where the host gives the request up (R164, R165); after a mismatch the host keeps waiting (R162). DESIGN CHOICE, log 27: a `CLEAR` on none of these occasions leaves the request in flight. -/
def HostBook.cleared (b : HostBook) (givenUp : Option GivenUp) : HostBook :=
  { request := if givenUp.isSome || decide (b.owed = .thenReturn) then none else b.request, owed := .nothing }

/-- The book after a move whose step gave `t`. DESIGN CHOICE, log 26: `RESET` leaves the book alone, since R160 names only the `CLEAR` that ends a request; a `CLEAR` that was owed stays owed. -/
def HostBook.after (b : HostBook) (m : HostMove) (t : State) : HostBook :=
  match m.event with
  | .clear                    => b.cleared m.givenUp
  | .reset                    => b
  | .encodeReq mode pid extra => { b with request := some { mode := mode, pid := pid, extra := extra } }.hear t
  | _                         => b.hear t

/-! ### Runs -/

/-- The book after a run from `s`, none if a move may not occur where it stands. -/
def bookAfter : HostBook → State → List HostMove → Option HostBook
  | b, _, []      => some b
  | b, s, m :: ms =>
    if b.mayOccur s m then
      match exec m.event (atBoundary s) with
      | .next t    => bookAfter (b.after m t) t ms
      | .fault _   => none
      | .refused _ => none
    else none

/-- Host and timer keep to R160 to R167 throughout the run; a `CLEAR` may still be owed at its end. -/
def dutiful (b : HostBook) (s : State) (ms : List HostMove) : Bool := (bookAfter b s ms).isSome

/-- A dutiful run after which no request is in flight and no `CLEAR` owed: every request has had its final `CLEAR` (R167, R168). -/
def dutifulToTheEnd (b : HostBook) (s : State) (ms : List HostMove) : Bool := decide (bookAfter b s ms = some .free)

/-- What a host that keeps its duties knows: a block in a terminal state is owed a `CLEAR` (R163, R167, R216). -/
def HostBook.Knows (b : HostBook) (s : State) : Prop := s.session.rxReady = false → b.owed ≠ .nothing

end Sys2Proof.Machine
end

