-- ==== Sys2Proof/Machine/Trace.lean ====
section
/-! DEFINITION. The textual form of traces (R78) and its pseudo-forms (R79; the spec's decision D26): how a line of 95_test_vectors.md stands for an event, and what line a step shows. Nothing here is used by the step (log 22). -/

namespace Sys2Proof.Machine

/-! ### Pseudo-forms: each is an RX event (R79) -/

/-- The 11-bit sender a trace line names without `x`. -/
def standard (id : Identifier) : Sender := { id := id, extended := false }

/-- Data bytes padded up to 8 bytes with `pp`, where a line gives `/ pp`. -/
def padTo8 (pad : Option Byte) (data : List Byte) : List Byte :=
  match pad with
  | none    => data
  | some pp => data ++ List.replicate (Config.frameBytes - data.length) pp

/-- `sf <id> : d1 .. dL [/ pp]` is `rx <id> : 0L d1 .. dL`, padded. -/
def sfForm (id : Identifier) (data : List Byte) (pad : Option Byte) : CanFrame :=
  dataFrame (standard id) (padTo8 pad (BitVec.ofNat 8 data.length :: data))

/-- `ff <id> <len> : d0 .. d5` is `rx <id> : 1H MM d0 .. d5`. -/
def ffForm (id : Identifier) (len : Count) (data : List Byte) : CanFrame :=
  dataFrame (standard id) (pciFf (len.extractLsb' 8 4) :: len.extractLsb' 0 8 :: data)

/-- `cf <id> <n> : d0 .. d6` is `rx <id> : 2n d0 .. d6`. -/
def cfForm (id : Identifier) (n : Nibble) (data : List Byte) : CanFrame :=
  dataFrame (standard id) (pciCf n :: data)

/-- `fc <id> <f> <bs> <st> [/ pp]` is `rx <id> : 3f bs st`, padded. -/
def fcForm (id : Identifier) (f : Nibble) (bs st : Byte) (pad : Option Byte) : CanFrame :=
  dataFrame (standard id) (padTo8 pad [pciFc f, bs, st])

/-! ### Lines, as lists of words (R78) -/

/-- One hexadecimal digit. -/
def hexDigit (n : Nat) : String :=
  ["0", "1", "2", "3", "4", "5", "6", "7", "8", "9", "A", "B", "C", "D", "E", "F"].getD n ""

/-- A byte as two hexadecimal digits. -/
def hexByte (b : Byte) : String := hexDigit (b.toNat / 16) ++ hexDigit (b.toNat % 16)

/-- A number in hexadecimal without leading zeros, at most `n + 1` digits. -/
def hexNat : Nat → Nat → String
  | 0, v     => hexDigit (v % 16)
  | n + 1, v => if v < 16 then hexDigit v else hexNat n (v / 16) ++ hexDigit (v % 16)

/-- An identifier in hexadecimal: at most 8 digits. -/
def hexId (id : Identifier) : String := hexNat 7 id.toNat

/-- A word that stands in a line only if a flag is set. -/
def flagWord (b : Bool) (w : String) : List String := if b then [w] else []

/-- The words of an RX event's line. -/
def rxLine (f : CanFrame) : List String :=
  ["rx", hexId f.id] ++ flagWord f.extended "x" ++ flagWord f.rtr "r" ++ [":"] ++ f.data.map hexByte

/-- The words of an ENCODE_REQ event's line. -/
def encLine (mode : Byte) (pid : Option Byte) (extra : List Byte) : List String :=
  ["enc", hexByte mode, (pid.map hexByte).getD "-"] ++ flagWord (!extra.isEmpty) ":" ++ extra.map hexByte

/-- The line of an event; none for an instruction that is no event of R61. -/
def eventLine (i : Instr) : Option (List String) :=
  match i.frame, i with
  | some f, _                            => some (rxLine f)
  | none, .encodeReq mode pid extra      => some (encLine mode pid extra)
  | none, .expire                        => some ["expire"]
  | none, .clear                         => some ["clear"]
  | none, .reset                         => some ["reset"]
  | none, _                              => none

/-- The name a trace line gives a cause: the sub-cause alone for a `ProtocolError`. -/
def Cause.name : Cause → String
  | .encodeError         => "EncodeError"
  | .timeoutError        => "TimeoutError"
  | .sequenceMismatch    => "SequenceMismatch"
  | .invalidPciType      => "InvalidPciType"
  | .singleLengthInvalid => "SingleLengthInvalid"
  | .overflow            => "Overflow"
  | .frameTooShort       => "FrameTooShort"

/-- The line a step shows: its output, or that the event was not accepted. -/
def outputLine (s : State) : List String :=
  if s.accepted then
    match s.out with
    | .none             => ["->", "-"]
    | .tx f             => ["->", "tx", hexId f.id] ++ flagWord f.extended "x" ++ [":"] ++ f.data.map hexByte
    | .deliver id ext p => ["->", "deliver", hexId id] ++ flagWord ext "x" ++ [":"] ++ p.map hexByte
    | .error c          => ["->", "error", c.name]
  else ["!!", "not accepted"]

end Sys2Proof.Machine
end

