-- ==== Sys2Proof/Safety.lean ====
section
/-! DEFINITION. The terms claims are made in: the invariants of R31, the runs of several events, who raises an event (R184), the hardware's order of simultaneous events (R187). The host's duties stand in Machine/HostBoundary.lean. Nothing here is used by the step. -/

namespace Sys2Proof.Machine

/-! ### Invariants (R31) -/

/-- The buffer holds a value at exactly the addresses `0 .. bufLen - 1` (R22, R28). -/
def bufferHolds (buf : Memory) (bufLen : Count) : Prop := buf.map Prod.fst = List.range bufLen.toNat

/-- What holds in `AwaitingConsecutive` (R28, R31 (a) and (b), R25); `k` counts the accepted Consecutive frames. -/
structure Receiving.Inv (r : Receiving) : Prop where
  buffer : bufferHolds r.buf r.bufLen
  counts : ∃ k : Nat,
    r.bufLen.toNat = min r.expectedLength.toNat (6 + 7 * k) ∧
    r.nextSequence = BitVec.ofNat 4 (1 + k) ∧
    6 ≤ r.bufLen.toNat ∧ r.bufLen.toNat ≤ r.expectedLength.toNat ∧
    (r.bufLen = r.expectedLength → r.expectedLength.toNat = 6 ∧ k = 0)
  peer   : idFits r.peerId r.peerExt = true

/-- What holds in `Complete` (R27, R28, R31 (d), R25). -/
structure Completed.Inv (c : Completed) : Prop where
  buffer : bufferHolds c.buf c.bufLen
  full   : c.bufLen = c.expectedLength
  enough : 6 ≤ c.expectedLength.toNat
  peer   : idFits c.peerId c.peerExt = true

/-- What holds of `S` in every reachable state: R31, and in `Aborted` a latched cause that is not `EncodeError` (R75, R180). -/
def Session.Inv : Session → Prop
  | .idle                  => True
  | .awaitingConsecutive r => r.Inv
  | .complete c            => c.Inv
  | .aborted err           => err ≠ .encodeError

/-- A frame ITPB may transmit: a `CanFrame`, no remote frame, exactly 8 data bytes (R66, R67, R167). -/
def CanFrame.transmittable (f : CanFrame) : Prop := f.wf = true ∧ f.rtr = false ∧ f.data.length = Config.frameBytes

/-- What holds of an output (R60, R80). -/
def Output.Inv : Output → Prop
  | .none               => True
  | .tx f               => CanFrame.transmittable f
  | .deliver id ext pay => idFits id ext = true ∧ pay.length ≤ Config.maxLen
  | .error _            => True

/-- The invariant of the whole machine. -/
structure State.Inv (s : State) : Prop where
  session : s.session.Inv
  out     : s.out.Inv
  cfg     : s.cfg.wf = true
  held    : ∀ f ∈ s.rxQueue, f.wf = true
  taken   : ∀ f ∈ s.txQueue, CanFrame.transmittable f

/-! ### Several events, one after the other -/

/-- The events of a list processed in order, each to completion (R47). -/
def execAll : List Instr → State → Answer
  | [], s      => .next s
  | i :: is, s =>
    match exec i s with
    | .next t    => execAll is t
    | .fault r   => .fault r
    | .refused r => .refused r

/-- The Consecutive frames with sequence numbers `k, k+1, ..` modulo 16, each from its own sender. -/
def consecutiveFrom : Nat → List (Sender × List Byte) → List Instr
  | _, []      => []
  | k, c :: cs => .rxCf c.1 (BitVec.ofNat 4 k) c.2 :: consecutiveFrom (k + 1) cs

/-- The number of Consecutive frames a session takes: `max(1, ceil((expectedLength - 6) / 7))` (R125). -/
def framesToComplete (total : Nat) : Nat := max 1 ((total - 6 + 6) / 7)

/-! ### The row an instruction runs under -/

/-- The row of an RX event's frame; any other instruction is its own row (R81, R82). -/
def rowOf (i : Instr) : Instr :=
  match i.frame with
  | some f => decodeRx f
  | none   => i

/-! ### Agents and simultaneous events -/

/-- Who raises an event (R10, R61, R140, R184). DESIGN CHOICE, log 28: R184's table names the integrator as the source of `RESET`, R10 and R167 give `RESET` to the host; the model takes the host. The reserved tags name no event (R146); the codec's functions are called by the host (R185). -/
def raisedBy : Instr → Option Agent
  | .rxSf _ _ _        => some .host
  | .rxSfLenRsvd _ _ _ => some .host
  | .rxFf _ _ _        => some .host
  | .rxCf _ _ _        => some .host
  | .rxFc _ _ _        => some .host
  | .rxPciRsvd47 _ _ _ => some .host
  | .rxPciRsvd8F _ _ _ => some .host
  | .rxEmpty _         => some .host
  | .rxRtr _ _         => some .host
  | .rxHold _          => some .host
  | .rx _              => some .host
  | .encodeReq _ _ _   => some .host
  | .expire            => some .timer
  | .clear             => some .host
  | .reset             => some .host
  | .evtRsvd5          => none
  | .evtRsvd6          => none
  | .evtRsvd7          => none
  | .classify _        => some .host
  | .encodeFc _ _ _    => some .host
  | .fcCts _           => some .host
  | .req _ _ _         => some .host

/-- The hardware's rank of an event among those available at one boundary, lowest first: RESET, CLEAR, EXPIRE, RX, ENCODE_REQ (R187). The step does not build it in: every order of `inputs` is admitted. -/
def boundaryRank (i : Instr) : Nat :=
  match raisedBy i, i.frame, i with
  | _, some _, _             => 3
  | _, none, .reset          => 0
  | _, none, .clear          => 1
  | _, none, .expire         => 2
  | _, none, .encodeReq _ _ _ => 4
  | _, none, _               => 5

/-- Events presented in the hardware's order of one boundary (R187). -/
def inBoundaryOrder (is : List Instr) : Bool := decide (is.Pairwise fun i j => boundaryRank i ≤ boundaryRank j)

end Sys2Proof.Machine
end

