-- ==== Sys2Proof/Certificates/Slice0/Obligations.lean ====
section
/-! DEFINITION. The statements for the provers, one `def Obligations.<Name> : Prop` each. OBLIGATIONS.json says for each which rule of the spec it formalises, or which decision of the spec or of the model it rests on. -/

open Sys2Proof
open Sys2Proof.Machine

/-! ### Encoding -/

/-- Words written out from R61 (event tags) and R62 to R66 (PCI byte, vectors K1, K9, K14, K18, K23 of 95_test_vectors.md) decode to the instruction they stand for. The bytes between tag and data are the model's own layout (log 1). -/
def Obligations.WrittenWordsDecode : Prop :=
  decode [0x00#8, 0x08#8, 0x00#8, 0x00#8, 0x07#8, 0xE8#8, 0x03#8, 0x41#8, 0x0D#8, 0x32#8, 0xCC#8, 0xCC#8, 0xCC#8, 0xCC#8]
      = .ok (.rxSf ⟨0x7E8#29, false⟩ 3#3 [0x41#8, 0x0D#8, 0x32#8, 0xCC#8, 0xCC#8, 0xCC#8, 0xCC#8]) ∧
  decode [0x00#8, 0x08#8, 0x00#8, 0x00#8, 0x07#8, 0xE8#8, 0x10#8, 0x14#8, 0x49#8, 0x02#8, 0x01#8, 0x31#8, 0x47#8, 0x31#8]
      = .ok (.rxFf ⟨0x7E8#29, false⟩ 0#4 [0x14#8, 0x49#8, 0x02#8, 0x01#8, 0x31#8, 0x47#8, 0x31#8]) ∧
  decode [0x00#8, 0x08#8, 0x00#8, 0x00#8, 0x07#8, 0xE8#8, 0x21#8, 0x4A#8, 0x43#8, 0x35#8, 0x34#8, 0x34#8, 0x34#8, 0x52#8]
      = .ok (.rxCf ⟨0x7E8#29, false⟩ 1#4 [0x4A#8, 0x43#8, 0x35#8, 0x34#8, 0x34#8, 0x34#8, 0x52#8]) ∧
  decode [0x00#8, 0x03#8, 0x00#8, 0x00#8, 0x07#8, 0xE8#8, 0x30#8, 0x00#8, 0x00#8]
      = .ok (.rxFc ⟨0x7E8#29, false⟩ 0#4 [0x00#8, 0x00#8]) ∧
  decode [0x00#8, 0x01#8, 0x00#8, 0x00#8, 0x07#8, 0xE8#8, 0x40#8]
      = .ok (.rxPciRsvd47 ⟨0x7E8#29, false⟩ 0#6 []) ∧
  decode [0x01#8, 0x01#8, 0x01#8, 0x0C#8] = .ok (.encodeReq 0x01#8 (some 0x0C#8) []) ∧
  decode [0x02#8] = .ok .expire ∧ decode [0x03#8] = .ok .clear ∧ decode [0x04#8] = .ok .reset

/-- Decoding the image of a well-formed instruction gives it back, for every instruction and every operand. -/
def Obligations.DecodeOfEncodeIsIdentity : Prop :=
  ∀ i : Instr, i.wf = true → decode (encode i) = .ok i

/-- Every image the decoder accepts is the image of a well-formed instruction, the one it gives: no bit of an accepted image is dropped, and none is read in two ways. -/
def Obligations.DecodedImageIsCanonical : Prop :=
  ∀ (img : List Byte) (i : Instr), decode img = .ok i → i.wf = true ∧ encode i = img

/-- The decoder of RX events is total and drops no bit of a frame: the row it gives stands for that very frame, and is well formed when the frame is. -/
def Obligations.RxDecoderKeepsTheFrame : Prop :=
  ∀ f : CanFrame, (decodeRx f).frame = some f ∧ (f.wf = true → (decodeRx f).wf = true)

/-- The high nibble of byte 0 selects the type (R62), the low bits of byte 0 staying as the row's operand. -/
def Obligations.PciByteSelectsTheRow : Prop :=
  ∀ (src : Sender) (b : Byte) (rest : List Byte),
    (hiNibble b = 0#4 ∧ (loNibble b).toNat ≤ 7 → decodePci src b rest = .rxSf src ((loNibble b).setWidth 3) rest) ∧
    (hiNibble b = 0#4 ∧ 7 < (loNibble b).toNat → decodePci src b rest = .rxSfLenRsvd src ((loNibble b).setWidth 3) rest) ∧
    (hiNibble b = 1#4 → decodePci src b rest = .rxFf src (loNibble b) rest) ∧
    (hiNibble b = 2#4 → decodePci src b rest = .rxCf src (loNibble b) rest) ∧
    (hiNibble b = 3#4 → decodePci src b rest = .rxFc src (loNibble b) rest) ∧
    (4 ≤ (hiNibble b).toNat ∧ (hiNibble b).toNat ≤ 7 → decodePci src b rest = .rxPciRsvd47 src (b.setWidth 6) rest) ∧
    (8 ≤ (hiNibble b).toNat → decodePci src b rest = .rxPciRsvd8F src (b.setWidth 7) rest)

/-- A presented frame whose length code is above 8 is no `CanFrame` and is refused (R60, U9). Where the length code stands in an image (bits 3..0 of the byte after tag 0, bits 7..6 being zero, four identifier bytes following) is the model's own layout, log 1; a first byte that is no row is refused by name, log 2. -/
def Obligations.ImagesThatAreNoEventAreRefused : Prop :=
  ∀ (s : State) (ops : List Byte) (later : List (List Byte)),
    (∀ (h b3 b2 b1 b0 : Byte), h.extractLsb' 6 2 = 0#2 → 8 < (loNibble h).toNat →
      step { s with inputs := (0x00#8 :: h :: b3 :: b2 :: b1 :: b0 :: ops) :: later }
        = .refused (.notAnEvent .lengthCodeAboveEight)) ∧
    (∀ t : Byte, 14 ≤ t.toNat →
      step { s with inputs := (t :: ops) :: later } = .refused (.notAnEvent .unassignedTag))

/-! ### The step -/

/-- When the next image decodes to an instruction, the step is that instruction's meaning, at the state with the image consumed and the step boundary counted. -/
def Obligations.StepRunsTheDecodedInstruction : Prop :=
  ∀ (s : State) (img : List Byte) (later : List (List Byte)) (i : Instr),
    s.inputs = img :: later → decode img = .ok i →
    step s = exec i { s with inputs := later, tick := s.tick + 1 }

/-- With no event scripted, a frame the adapter still holds is presented as RX as soon as the block is ready; with none held the step is silent and only the adapter moves. The model's choice, log 4 and log 19. -/
def Obligations.StepWithNothingScripted : Prop :=
  ∀ s : State, s.inputs = [] →
    (∀ f later, s.rxQueue = f :: later → s.session.rxReady = true →
      step s = exec (.rx f) { s with rxQueue := later, tick := s.tick + 1 }) ∧
    ((s.rxQueue = [] ∨ s.session.rxReady = false) →
      step s = .next { s with out := .none, codec := .none, accepted := true, txQueue := s.txQueue.tail, tick := s.tick + 1 })

/-! ### Classification -/

/-- PCI types 4 to 15 fail classification whatever the other bytes (R96). -/
def Obligations.ReservedPciTypesFailClassification : Prop :=
  ∀ (b : Byte) (rest : List Byte), 4 ≤ (hiNibble b).toNat → classify (b :: rest) = .error .invalidPciType

/-- A Single length nibble of 8 to 15 is illegal; length 0 is legal and yields an empty payload (R72). -/
def Obligations.SingleLengthNibble : Prop :=
  ∀ (b : Byte) (rest : List Byte), hiNibble b = 0#4 →
    (7 < (loNibble b).toNat → classify (b :: rest) = .error .singleLengthInvalid) ∧
    ((loNibble b).toNat = 0 → classify (b :: rest) = .ok (.single 0#4 []))

/-- The First frame's length is `(low nibble of byte 0) * 256 + byte 1`, unsigned, 0..4095 (R68). -/
def Obligations.FirstLengthIsBigEndian : Prop :=
  ∀ (b low : Byte) (d : List Byte), hiNibble b = 1#4 → d.length = 6 →
    ∃ total : Count, classify (b :: low :: d) = .ok (.first total d) ∧
      total.toNat = (loNibble b).toNat * 256 + low.toNat ∧ total.toNat ≤ 4095

/-- The other fields are taken as they stand (R69). -/
def Obligations.FieldsAreTakenAsTheyStand : Prop :=
  ∀ (b : Byte) (rest : List Byte),
    (hiNibble b = 0#4 → (loNibble b).toNat ≤ 7 → (loNibble b).toNat ≤ rest.length →
      classify (b :: rest) = .ok (.single (loNibble b) (rest.take (loNibble b).toNat))) ∧
    (hiNibble b = 2#4 → rest.length = 7 → classify (b :: rest) = .ok (.consecutive (loNibble b) rest)) ∧
    (∀ bs sep more, hiNibble b = 3#4 → rest = bs :: sep :: more →
      classify (b :: rest) = .ok (.flowControl (loNibble b) bs sep))

/-- `CLASSIFY` on every data of 0 to 8 bytes completes: the result of R91 to R97 is what the codec unit shows, and nothing else changes. That a short frame is `FrameTooShort` is the spec's decision D6; the field that shows the result is the model's own (log 8). -/
def Obligations.ClassifyCompletes : Prop :=
  ∀ (s : State) (data : List Byte), data.length ≤ 8 →
    ∃ c : CodecOut,
      exec (.classify data) s = .next { s with out := .none, codec := c, accepted := true } ∧
      (data = [] → c = .failed .frameTooShort) ∧
      (∀ b rest, data = b :: rest →
        (hiNibble b = 0#4 → 7 < (loNibble b).toNat → c = .failed .singleLengthInvalid) ∧
        (hiNibble b = 0#4 → (loNibble b).toNat ≤ 7 → rest.length < (loNibble b).toNat → c = .failed .frameTooShort) ∧
        (hiNibble b = 0#4 → (loNibble b).toNat ≤ 7 → (loNibble b).toNat ≤ rest.length →
          c = .variant (.single (loNibble b) (rest.take (loNibble b).toNat))) ∧
        (hiNibble b = 1#4 → rest.length < 7 → c = .failed .frameTooShort) ∧
        (∀ low d, hiNibble b = 1#4 → rest = low :: d → d.length = 6 → c = .variant (.first (loNibble b ++ low) d)) ∧
        (hiNibble b = 2#4 → rest.length < 7 → c = .failed .frameTooShort) ∧
        (hiNibble b = 2#4 → rest.length = 7 → c = .variant (.consecutive (loNibble b) rest)) ∧
        (hiNibble b = 3#4 → rest.length < 2 → c = .failed .frameTooShort) ∧
        (∀ bs sep more, hiNibble b = 3#4 → rest = bs :: sep :: more → c = .variant (.flowControl (loNibble b) bs sep)) ∧
        (4 ≤ (hiNibble b).toNat → c = .failed .invalidPciType))

/-! ### Encoding functions of the codec unit -/

/-- `CLASSIFY(ENCODE_FC(s, b, t)) = FlowControl{s, b, t}`, whatever the filler (R100, which the spec derives). -/
def Obligations.FlowControlRoundTrip : Prop :=
  ∀ (filler : Byte) (st : Nibble) (bs sep : Byte),
    classify (encodeFcData filler st bs sep) = .ok (.flowControl st bs sep)

/-- `ENCODE_FC` completes and shows `[0x30 | status, blockSize, separationTimeMs]` and five filler bytes. Length and filler are the spec's decision D13; the field that shows the result is the model's own (log 8). -/
def Obligations.EncodeFcCompletes : Prop :=
  ∀ (s : State) (st : Nibble) (bs sep : Byte),
    exec (.encodeFc st bs sep) s =
      .next { s with out := .none, accepted := true,
                     codec := .bytes [0x30#8 ||| st.setWidth 8, bs, sep, s.cfg.fcFill, s.cfg.fcFill, s.cfg.fcFill, s.cfg.fcFill, s.cfg.fcFill] }

/-- `FC.CTS` completes: the generated frame is `30 00 00` and filler, addressed by `FC_ID`, and under the default table an 11-bit sender of `0x7E8..0x7EF` is answered on its identifier less 8. Status 0 and the identifier are the spec's general knowledge GK1, GK2 (log 12, log 13). -/
def Obligations.FcCtsCompletes : Prop :=
  ∀ (s : State) (src : Sender),
    ∃ id : Identifier,
      exec (.fcCts src) s =
        .next { s with out := .none, accepted := true,
                       codec := .frame { id := id, extended := src.extended, rtr := false,
                                         data := [0x30#8, 0x00#8, 0x00#8, s.cfg.fcFill, s.cfg.fcFill, s.cfg.fcFill, s.cfg.fcFill, s.cfg.fcFill] } } ∧
      id = fcId s.cfg src ∧
      (s.cfg.fcIds = [] → src.extended = false → 0x7E8 ≤ src.id.toNat → src.id.toNat ≤ 0x7EF →
        id.toNat = src.id.toNat - 8)

/-- The request's payload `[mode, pid?, ...extraData]` is right-padded with `0xCC` to exactly 8 bytes (R67). -/
def Obligations.RequestIsPaddedToEightBytes : Prop :=
  ∀ (cfg : Cfg) (mode : Byte) (pid : Option Byte) (extra : List Byte),
    ([mode] ++ pid.toList ++ extra).length ≤ 8 →
    ∃ f : CanFrame, encodeRequest cfg mode pid extra = .ok f ∧
      f.data.length = 8 ∧
      f.data = [mode] ++ pid.toList ++ extra ++ List.replicate (8 - ([mode] ++ pid.toList ++ extra).length) 0xCC#8

/-- `ENCODE_REQ` completes in every state (R90): a request of at most 8 bytes is transmitted from `REQ_ID`, a longer one is `EncodeError`; the session is never touched. That the error is not latched is the spec's decision D21. -/
def Obligations.EncodeReqCompletes : Prop :=
  ∀ (s : State) (mode : Byte) (pid : Option Byte) (extra : List Byte),
    (([mode] ++ pid.toList ++ extra).length ≤ 8 →
      ∃ f : CanFrame, f.id = s.cfg.reqId ∧ f.extended = s.cfg.reqExt ∧ f.rtr = false ∧
        f.data = [mode] ++ pid.toList ++ extra ++ List.replicate (8 - ([mode] ++ pid.toList ++ extra).length) 0xCC#8 ∧
        exec (.encodeReq mode pid extra) s =
          .next { s with out := .tx f, codec := .none, accepted := true, txQueue := s.txQueue ++ [f] }) ∧
    (8 < ([mode] ++ pid.toList ++ extra).length →
      exec (.encodeReq mode pid extra) s = .next { s with out := .error .encodeError, codec := .none, accepted := true })

/-- `REQ` completes: the request frame of R67 is what the codec unit shows, and nothing is transmitted. The field that shows the result is the model's own (log 8). -/
def Obligations.ReqCompletes : Prop :=
  ∀ (s : State) (mode : Byte) (pid : Option Byte) (extra : List Byte),
    (([mode] ++ pid.toList ++ extra).length ≤ 8 →
      exec (.req mode pid extra) s =
        .next { s with out := .none, accepted := true,
                       codec := .frame { id := s.cfg.reqId, extended := s.cfg.reqExt, rtr := false,
                                         data := [mode] ++ pid.toList ++ extra ++ List.replicate (8 - ([mode] ++ pid.toList ++ extra).length) 0xCC#8 } }) ∧
    (8 < ([mode] ++ pid.toList ++ extra).length →
      exec (.req mode pid extra) s = .next { s with out := .none, codec := .failed .encodeError, accepted := true })

/-- The codec's operations are functions of their operands and of the static configuration only (R99): the same operands give the same result in every state, they complete in every state, and they write nothing; `ENCODE_REQ`'s `TX` is handed to the adapter. -/
def Obligations.CodecIsPure : Prop :=
  ∀ (i : Instr) (s s' : State),
    ((∃ m p e, i = .encodeReq m p e) ∨ (∃ d, i = .classify d) ∨ (∃ f b t, i = .encodeFc f b t) ∨
      (∃ src, i = .fcCts src) ∨ (∃ m p e, i = .req m p e)) →
    s.cfg = s'.cfg →
    ∃ t t' : State, exec i s = .next t ∧ exec i s' = .next t' ∧
      t.out = t'.out ∧ t.codec = t'.codec ∧
      t.session = s.session ∧ t.cfg = s.cfg ∧ t.rxQueue = s.rxQueue ∧ t.inputs = s.inputs ∧
      ((∀ f, t.out ≠ .tx f) → t.txQueue = s.txQueue)

/-! ### Single and First frames -/

/-- A Single frame is delivered at once and the session is untouched, in `Idle` and in `AwaitingConsecutive` (R114; during a session by the spec's decision D10). -/
def Obligations.SingleFrameIsDelivered : Prop :=
  ∀ (s : State) (src : Sender) (len : BitVec 3) (rest : List Byte),
    s.session.rxReady = true → len.toNat ≤ rest.length →
    exec (.rxSf src len rest) s =
      .next { s with out := .deliver src.id src.extended (rest.take len.toNat), codec := .none, accepted := true }

/-- A First frame of at least 6 bytes opens a session with its six bytes at addresses 0..5 and transmits one flow-control frame to `FC_ID` (R115). Status, identifier and filler are the spec's GK1, GK2 and D13; the armed time is the free clock's (log 10). -/
def Obligations.FirstFrameOpensASession : Prop :=
  ∀ (s : State) (src : Sender) (high : Nibble) (low : Byte) (d : List Byte),
    s.session.rxReady = true → d.length = 6 → 6 ≤ high.toNat * 256 + low.toNat →
    ∃ (total : Count) (buf : Memory) (f : CanFrame),
      total.toNat = high.toNat * 256 + low.toNat ∧
      (∀ a : Nat, Memory.read buf a = d[a]?) ∧
      f.id = fcId s.cfg src ∧ f.extended = src.extended ∧ f.rtr = false ∧
      f.data = [0x30#8, 0x00#8, 0x00#8] ++ List.replicate 5 s.cfg.fcFill ∧
      exec (.rxFf src high (low :: d)) s =
        .next { s with out := .tx f, codec := .none, accepted := true, txQueue := s.txQueue ++ [f],
                       session := .awaitingConsecutive
                         { expectedLength := total, buf := buf, bufLen := 6#12, nextSequence := 1#4,
                           peerId := src.id, peerExt := src.extended, deadline := armedDeadline s } }

/-- A First frame of fewer than 6 bytes aborts with `Overflow`, transmits nothing and buffers nothing (R116; that no frame is transmitted is the spec's decision D8). -/
def Obligations.FirstFrameBelowSixOverflows : Prop :=
  ∀ (s : State) (src : Sender) (high : Nibble) (low : Byte) (d : List Byte),
    s.session.rxReady = true → d.length = 6 → high.toNat * 256 + low.toNat < 6 →
    exec (.rxFf src high (low :: d)) s =
      .next { s with out := .error .overflow, codec := .none, accepted := true, session := .aborted .overflow }

/-- The last First frame wins (R124): in `AwaitingConsecutive` a First frame, of any length field and from any identifier, is processed exactly as in `Idle`; where it opens a session no `ERROR` is emitted for the stale one, its bytes are lost, and a new flow-control frame goes to the new sender. -/
def Obligations.LastFirstFrameWins : Prop :=
  ∀ (s : State) (r : Receiving) (src : Sender) (high : Nibble) (rest : List Byte),
    s.session = .awaitingConsecutive r →
    exec (.rxFf src high rest) s = exec (.rxFf src high rest) { s with session := .idle } ∧
    (∀ low d, rest = low :: d → d.length = 6 → 6 ≤ high.toNat * 256 + low.toNat →
      ∃ (t : State) (f : CanFrame), exec (.rxFf src high rest) s = .next t ∧
        t.out = .tx f ∧ f.id = fcId s.cfg src ∧ f.extended = src.extended ∧
        ∀ a, t.session.readByte a = d[a]?)

/-! ### Consecutive frames -/

/-- A sequence mismatch aborts with `SequenceMismatch`; nothing is appended (R117). -/
def Obligations.SequenceMismatchAborts : Prop :=
  ∀ (s : State) (r : Receiving) (src : Sender) (sn : Nibble) (d : List Byte),
    s.session = .awaitingConsecutive r → d.length = 7 → sn ≠ r.nextSequence →
    exec (.rxCf src sn d) s =
      .next { s with out := .error .sequenceMismatch, codec := .none, accepted := true, session := .aborted .sequenceMismatch }

/-- A Consecutive frame in sequence (R118): `n = min(7, expectedLength - bufLen)` bytes are appended at `bufLen`; reaching `expectedLength` completes the session and delivers the whole buffer under the First frame's identifier; otherwise the next sequence number advances modulo 16 and the session stays, its deadline armed anew. The sender `src` is any. The armed time is R145's on the free clock, the model's choice of log 10. -/
def Obligations.ConsecutiveFrameIsAccepted : Prop :=
  ∀ (s : State) (r : Receiving) (src : Sender) (d : List Byte),
    s.session = .awaitingConsecutive r → r.Inv → d.length = 7 →
    ∃ (n : Nat) (buf : Memory),
      n = min 7 (r.expectedLength.toNat - r.bufLen.toNat) ∧
      (∀ a : Nat, Memory.read buf a =
        if r.bufLen.toNat ≤ a ∧ a < r.bufLen.toNat + n then d[a - r.bufLen.toNat]? else Memory.read r.buf a) ∧
      (r.bufLen.toNat + n < r.expectedLength.toNat →
        exec (.rxCf src r.nextSequence d) s =
          .next { s with out := .none, codec := .none, accepted := true,
                         session := .awaitingConsecutive
                           { r with buf := buf, bufLen := BitVec.ofNat 12 (r.bufLen.toNat + n),
                                    nextSequence := BitVec.ofNat 4 ((r.nextSequence.toNat + 1) % 16),
                                    deadline := armedDeadline s } }) ∧
      (r.bufLen.toNat + n = r.expectedLength.toNat →
        ∃ payload : List Byte,
          payload.length = r.expectedLength.toNat ∧
          (∀ a : Nat, a < r.expectedLength.toNat → payload[a]? = Memory.read buf a) ∧
          exec (.rxCf src r.nextSequence d) s =
            .next { s with out := .deliver r.peerId r.peerExt payload, codec := .none, accepted := true,
                           session := .complete { expectedLength := r.expectedLength, buf := buf, bufLen := r.expectedLength,
                                                  peerId := r.peerId, peerExt := r.peerExt } })

/-- A Consecutive frame's sender is not compared with the session's (R25, R214; the spec's decision D12): two senders give the same step while the block is ready. -/
def Obligations.ConsecutiveSenderIsNotCompared : Prop :=
  ∀ (s : State) (src src' : Sender) (sn : Nibble) (rest : List Byte),
    s.session.rxReady = true → exec (.rxCf src sn rest) s = exec (.rxCf src' sn rest) s

/-- Ignored frames complete silently (R119, R120, R112; the spec's decisions D9 and D17): a Consecutive frame in `Idle`, a flow-control frame and a remote frame in `Idle` and `AwaitingConsecutive`. -/
def Obligations.IgnoredFramesAreSilent : Prop :=
  ∀ (s : State) (src : Sender),
    (∀ sn d, s.session = .idle → d.length = 7 →
      exec (.rxCf src sn d) s = .next { s with out := .none, codec := .none, accepted := true }) ∧
    (∀ st bs sep more, s.session.rxReady = true →
      exec (.rxFc src st (bs :: sep :: more)) s = .next { s with out := .none, codec := .none, accepted := true }) ∧
    (∀ data, s.session.rxReady = true →
      exec (.rxRtr src data) s = .next { s with out := .none, codec := .none, accepted := true })

/-! ### Errors -/

/-- A frame that fails classification aborts with its cause, in `Idle` as in `AwaitingConsecutive` (R113; latched from `Idle` by the spec's decision D11, `FrameTooShort` by D6). -/
def Obligations.ClassificationErrorsAbort : Prop :=
  ∀ (s : State) (src : Sender), s.session.rxReady = true →
    (∀ low rest, exec (.rxSfLenRsvd src low rest) s =
      .next { s with out := .error .singleLengthInvalid, codec := .none, accepted := true, session := .aborted .singleLengthInvalid }) ∧
    (∀ low rest, exec (.rxPciRsvd47 src low rest) s =
      .next { s with out := .error .invalidPciType, codec := .none, accepted := true, session := .aborted .invalidPciType }) ∧
    (∀ low rest, exec (.rxPciRsvd8F src low rest) s =
      .next { s with out := .error .invalidPciType, codec := .none, accepted := true, session := .aborted .invalidPciType }) ∧
    (exec (.rxEmpty src) s =
      .next { s with out := .error .frameTooShort, codec := .none, accepted := true, session := .aborted .frameTooShort })

/-- A frame too short for its type aborts with `FrameTooShort`, before its length or its sequence number is looked at (R186; the spec's decisions D6 and D7). -/
def Obligations.ShortFramesAbort : Prop :=
  ∀ (s : State) (src : Sender) (rest : List Byte), s.session.rxReady = true →
    (∀ len : BitVec 3, rest.length < len.toNat → exec (.rxSf src len rest) s =
      .next { s with out := .error .frameTooShort, codec := .none, accepted := true, session := .aborted .frameTooShort }) ∧
    (∀ high, rest.length < 7 → exec (.rxFf src high rest) s =
      .next { s with out := .error .frameTooShort, codec := .none, accepted := true, session := .aborted .frameTooShort }) ∧
    (∀ sn, rest.length < 7 → exec (.rxCf src sn rest) s =
      .next { s with out := .error .frameTooShort, codec := .none, accepted := true, session := .aborted .frameTooShort }) ∧
    (∀ st, rest.length < 2 → exec (.rxFc src st rest) s =
      .next { s with out := .error .frameTooShort, codec := .none, accepted := true, session := .aborted .frameTooShort })

/-- The abort procedure (R188): `S.st` is `Aborted`, `S.err` holds the cause's code, the deadline disarmed, no session register or buffer byte holding a value, `ERROR` emitted, no frame transmitted, and nothing else changed. -/
def Obligations.AbortProcedure : Prop :=
  ∀ (c : Cause) (s : State), ∃ t : State, raise c s = .next t ∧
    t.session = .aborted c ∧ t.session.errCode = some c.code ∧ t.session.deadlineArmed = false ∧
    (∀ a, t.session.readByte a = none) ∧ t.session.heldResult = none ∧
    t.out = .error c ∧ t.txQueue = s.txQueue ∧ t.rxQueue = s.rxQueue ∧ t.cfg = s.cfg ∧ t.inputs = s.inputs

/-- An `ERROR` that is not `ENCODE_REQ`'s comes exactly with entering `Aborted` under that cause, and never from a terminal state (R188, R190; from `Idle` by the spec's decision D11). -/
def Obligations.ErrorComesWithAborted : Prop :=
  ∀ (i : Instr) (s t : State), (∀ m p e, i ≠ .encodeReq m p e) → exec i s = .next t →
    (∀ c, t.out = .error c → t.session = .aborted c ∧ s.session.rxReady = true) ∧
    (∀ c, t.session = .aborted c → s.session = .aborted c ∨ t.out = .error c)

/-! ### Terminal states -/

/-- The effect of `RX.HOLD`. In a terminal state no RX event of any row is accepted: `S` does not change, nothing is emitted, the frame stays with the adapter (R111, the spec's decision D4; as a step of the model, log 5). -/
def Obligations.TerminalStateHoldsEveryFrame : Prop :=
  ∀ (i : Instr) (f : CanFrame) (s : State), i.frame = some f → s.session.rxReady = false →
    exec i s = .next { s with out := .none, codec := .none, accepted := false, rxQueue := s.rxQueue ++ [f] }

/-- A terminal state, with the result or the cause it holds, is left by `CLEAR` and `RESET` only (R190, R27; the spec's decisions D3 and D4). -/
def Obligations.TerminalStateIsLeftOnlyByClearOrReset : Prop :=
  ∀ (i : Instr) (s t : State), s.session.rxReady = false → i ≠ .clear → i ≠ .reset →
    exec i s = .next t → t.session = s.session

/-- The step that completes a session delivers exactly what the host can then read out (R27, R122). -/
def Obligations.DeliveredPayloadIsTheHeldOne : Prop :=
  ∀ (i : Instr) (s t : State), exec i s = .next t → s.session.done = false → t.session.done = true →
    ∃ id ext payload, t.out = .deliver id ext payload ∧ t.session.heldResult = some (id, ext, payload)

/-! ### Dispatch -/

/-- The RX event of tag 0 runs as the row the decoder of R81 gives its frame: the dispatch of R110 agrees with the decoding procedure. So does the row `rxHold`; in `Idle` and `AwaitingConsecutive`, where the spec gives RX.HOLD no meaning, that is the model's choice of log 18. -/
def Obligations.DispatchAgreesWithDecoding : Prop :=
  ∀ (f : CanFrame) (s : State), exec (.rx f) s = exec (decodeRx f) s ∧ exec (.rxHold f) s = exec (decodeRx f) s

/-- The RX rows of the transition table (R143, which the spec derives): in `Idle` and `AwaitingConsecutive` an RX event completes, with the next state and the output the table gives. -/
def Obligations.ReceiveTransitionTable : Prop :=
  ∀ (f : CanFrame) (s : State), s.session.rxReady = true → s.session.Inv →
    ∃ t : State, exec (.rx f) s = .next t ∧
      (f.rtr = true → t.session = s.session ∧ t.out = .none) ∧
      (f.rtr = false →
        (∀ e, classify f.data = .error e → t.session = .aborted e ∧ t.out = .error e) ∧
        (∀ l d, classify f.data = .ok (.single l d) → t.session = s.session ∧ t.out = .deliver f.id f.extended d) ∧
        (∀ total d, classify f.data = .ok (.first total d) → 6 ≤ total.toNat →
          t.session.st = 1#2 ∧ t.out = .tx (ctsFrame s.cfg f.sender)) ∧
        (∀ total d, classify f.data = .ok (.first total d) → total.toNat < 6 →
          t.session = .aborted .overflow ∧ t.out = .error .overflow) ∧
        (∀ sn d, classify f.data = .ok (.consecutive sn d) → s.session = .idle → t.session = .idle ∧ t.out = .none) ∧
        (∀ sn d r, classify f.data = .ok (.consecutive sn d) → s.session = .awaitingConsecutive r → sn ≠ r.nextSequence →
          t.session = .aborted .sequenceMismatch ∧ t.out = .error .sequenceMismatch) ∧
        (∀ sn d r, classify f.data = .ok (.consecutive sn d) → s.session = .awaitingConsecutive r → sn = r.nextSequence →
          r.bufLen.toNat + 7 < r.expectedLength.toNat → t.session.st = 1#2 ∧ t.out = .none) ∧
        (∀ sn d r, classify f.data = .ok (.consecutive sn d) → s.session = .awaitingConsecutive r → sn = r.nextSequence →
          r.expectedLength.toNat ≤ r.bufLen.toNat + 7 →
          t.session.st = 2#2 ∧ ∃ payload, t.out = .deliver r.peerId r.peerExt payload ∧ payload.length = r.expectedLength.toNat) ∧
        (∀ st bs sep, classify f.data = .ok (.flowControl st bs sep) → t.session = s.session ∧ t.out = .none))

/-! ### Control operations -/

/-- `EXPIRE` while the deadline is armed aborts with `TimeoutError`, the buffer discarded (R140, D15). -/
def Obligations.ExpireAbortsAnArmedSession : Prop :=
  ∀ s : State, s.session.deadlineArmed = true →
    exec .expire s = .next { s with out := .error .timeoutError, codec := .none, accepted := true, session := .aborted .timeoutError }

/-- `EXPIRE` while no deadline is armed changes nothing and emits nothing (R140: not enabled; ignored as at a port, log 6). -/
def Obligations.ExpireIsNotEnabledUnarmed : Prop :=
  ∀ s : State, s.session.deadlineArmed = false →
    exec .expire s = .next { s with out := .none, codec := .none, accepted := false }

/-- `CLEAR` destroys the session from every state, silently (R141, the spec's decision D3). -/
def Obligations.ClearDestroysTheSession : Prop :=
  ∀ s : State, exec .clear s = .next { s with out := .none, codec := .none, accepted := true, session := .idle }

/-- `RESET` gives `S` its reset value from every state, silently, the configuration unchanged, and cannot be told from `CLEAR` (R142, the spec's decision D18; the environment's part is kept, log 24). -/
def Obligations.ResetGivesTheResetState : Prop :=
  ∀ s : State,
    exec .reset s = .next { s with out := .none, codec := .none, accepted := true, session := State.reset.session } ∧
    exec .reset s = exec .clear s

/-- Reserved event tags do nothing: no state change, no output (R146, the spec's decision D2; as instructions of the model, log 7). -/
def Obligations.ReservedTagsDoNothing : Prop :=
  ∀ s : State,
    exec .evtRsvd5 s = .next { s with out := .none, codec := .none, accepted := false } ∧
    exec .evtRsvd6 s = .next { s with out := .none, codec := .none, accepted := false } ∧
    exec .evtRsvd7 s = .next { s with out := .none, codec := .none, accepted := false }

/-! ### Whole-machine rules -/

/-- Flow-control generation (R121, which the spec derives): a `TX` that is not a request comes only from a First frame that opened a session in that step; it answers that session's sender, and it is the one frame handed to the adapter. -/
def Obligations.FlowControlOnlyForAcceptedFirst : Prop :=
  ∀ (i : Instr) (s t : State), (∀ m p e, i ≠ .encodeReq m p e) → exec i s = .next t →
    (∀ f, t.out = .tx f →
      (∃ src high rest, rowOf i = .rxFf src high rest) ∧ t.txQueue = s.txQueue ++ [f] ∧
      ∃ r, t.session = .awaitingConsecutive r ∧ r.bufLen = 6#12 ∧ r.nextSequence = 1#4 ∧
        f = ctsFrame s.cfg { id := r.peerId, extended := r.peerExt }) ∧
    ((∀ f, t.out ≠ .tx f) → t.txQueue = s.txQueue)

/-- No event changes the configuration, and none changes what the environment will present (R30, D14). -/
def Obligations.ConfigurationIsStatic : Prop :=
  ∀ (i : Instr) (s t : State), exec i s = .next t → t.cfg = s.cfg ∧ t.inputs = s.inputs ∧ t.tick = s.tick

/-- The arming law (R144, which the spec derives): while a session stays awaiting, a First or an accepted Consecutive frame arms the deadline anew, and every other event leaves the whole session, its deadline among it, as it was. -/
def Obligations.DeadlineArmingLaw : Prop :=
  ∀ (i : Instr) (s t : State) (r r' : Receiving), exec i s = .next t →
    s.session = .awaitingConsecutive r → t.session = .awaitingConsecutive r' →
    (((∃ src high rest, rowOf i = .rxFf src high rest) ∨ (∃ src sn rest, rowOf i = .rxCf src sn rest)) →
      r'.deadline = armedDeadline s) ∧
    ((∀ src high rest, rowOf i ≠ .rxFf src high rest) → (∀ src sn rest, rowOf i ≠ .rxCf src sn rest) → r' = r)

/-- The timer comparison is right across one wrap (R145; the formula is the spec's general knowledge GK10): `e` ticks after arming, the deadline has passed exactly when `timeout ≤ e`. -/
def Obligations.TimerComparisonSurvivesOneWrap : Prop :=
  ∀ (w : Nat) (start : BitVec w) (timeout e : Nat), 0 < w → timeout < 2 ^ (w - 1) → e < timeout + 2 ^ (w - 1) →
    deadlinePassed (start + BitVec.ofNat w e) (start + BitVec.ofNat w timeout) = decide (timeout ≤ e)

/-- Status signals as functions of `S.st` (R20, R29; the spec's decision D3). -/
def Obligations.StatusSignalsFollowTheState : Prop :=
  ∀ s : Session,
    (s.rxReady = true ↔ s.st = 0#2 ∨ s.st = 1#2) ∧ (s.busy = true ↔ s.st = 1#2) ∧
    (s.done = true ↔ s.st = 2#2) ∧ (s.error = true ↔ s.st = 3#2) ∧ s.deadlineArmed = s.busy

/-- The error codes of R75 (the spec's decision D5). -/
def Obligations.ErrorCodes : Prop :=
  Cause.encodeError.code = 1#4 ∧ Cause.timeoutError.code = 2#4 ∧ Cause.sequenceMismatch.code = 3#4 ∧
  Cause.invalidPciType.code = 4#4 ∧ Cause.singleLengthInvalid.code = 5#4 ∧ Cause.overflow.code = 6#4 ∧
  Cause.frameTooShort.code = 7#4

/-! ### Frames -/

/-- The frame of the rows that touch no session: a remote frame, a flow-control frame, a Single frame that is long enough, a Consecutive frame in `Idle`, a request, the codec's functions, an expiry that is not enabled, a reserved tag. Every session register and every buffer byte is as before, and so are configuration and held frames. -/
def Obligations.FrameOfSessionlessRows : Prop :=
  ∀ (i : Instr) (s t : State), exec i s = .next t → s.session.rxReady = true →
    ((∃ src d, i = .rxRtr src d) ∨ (∃ src st rest, i = .rxFc src st rest ∧ 2 ≤ rest.length) ∨
      (∃ src len rest, i = .rxSf src len rest ∧ len.toNat ≤ rest.length) ∨
      (∃ src sn rest, i = .rxCf src sn rest ∧ 7 ≤ rest.length ∧ s.session = .idle) ∨
      (∃ m p e, i = .encodeReq m p e) ∨ (∃ d, i = .classify d) ∨ (∃ f b sp, i = .encodeFc f b sp) ∨
      (∃ src, i = .fcCts src) ∨ (∃ m p e, i = .req m p e) ∨ (i = .expire ∧ s.session.deadlineArmed = false) ∨
      i = .evtRsvd5 ∨ i = .evtRsvd6 ∨ i = .evtRsvd7) →
    t.session = s.session ∧ (∀ a, t.session.readByte a = s.session.readByte a) ∧
      t.cfg = s.cfg ∧ t.rxQueue = s.rxQueue ∧ t.inputs = s.inputs

/-- The frame of a Consecutive frame that is accepted: every byte outside the `appendCount r` bytes from `appendAddr r` on reads as before; `expectedLength` and the peer registers are as before; nothing is transmitted. -/
def Obligations.FrameOfAcceptedConsecutive : Prop :=
  ∀ (s t : State) (r : Receiving) (src : Sender) (sn : Nibble) (rest : List Byte),
    s.session = .awaitingConsecutive r → exec (.rxCf src sn rest) s = .next t → t.session.error = false →
    (∀ a, ¬ (appendAddr r ≤ a ∧ a < appendAddr r + appendCount r) → t.session.readByte a = s.session.readByte a) ∧
    (∀ r', t.session = .awaitingConsecutive r' →
      r'.expectedLength = r.expectedLength ∧ r'.peerId = r.peerId ∧ r'.peerExt = r.peerExt) ∧
    (∀ c, t.session = .complete c →
      c.expectedLength = r.expectedLength ∧ c.peerId = r.peerId ∧ c.peerExt = r.peerExt) ∧
    t.cfg = s.cfg ∧ t.rxQueue = s.rxQueue ∧ t.txQueue = s.txQueue ∧ t.inputs = s.inputs

/-- The frame of a First frame while the block is ready: outside addresses 0..5 no byte of the buffer holds a value afterwards (the stale session's bytes are lost, R124), and only session, output and the frame handed to the adapter change. -/
def Obligations.FrameOfFirst : Prop :=
  ∀ (s t : State) (src : Sender) (high : Nibble) (rest : List Byte),
    s.session.rxReady = true → exec (.rxFf src high rest) s = .next t →
    (∀ a, 6 ≤ a → t.session.readByte a = none) ∧
    (t.session.error = true → ∀ a, t.session.readByte a = none) ∧
    t.cfg = s.cfg ∧ t.rxQueue = s.rxQueue ∧ t.inputs = s.inputs

/-- `MemWrite` and `MemRead` (R44): a write inside the buffer sets exactly its bytes and keeps the canonical form; a read gives the bytes at its addresses. -/
def Obligations.BufferPrimitives : Prop :=
  (∀ (m : Memory) (addr : Nat) (vs : List Byte), addr + vs.length ≤ 4095 →
    ∃ m', memWrite m addr vs = some m' ∧
      (∀ a, Memory.read m' a = if addr ≤ a ∧ a < addr + vs.length then vs[a - addr]? else Memory.read m a) ∧
      (m.wf → m'.wf)) ∧
  (∀ (m : Memory) (bufLen addr n : Nat) (vs : List Byte), memRead m bufLen addr n = some vs →
    addr + n ≤ bufLen ∧ vs.length = n ∧ ∀ j, j < n → vs[j]? = Memory.read m (addr + j))

/-! ### The host boundary -/

/-- What the duties buy the host (R167, which the spec derives): an event that may come under them is accepted and completes, and no frame goes to the adapter's queue. That a new request finds the block in `Idle` is deduced (log 21); that the same request may be issued again is the model's choice of log 25; that `RESET` changes nothing the host owes is log 26. -/
def Obligations.DutifulEventsAreAccepted : Prop :=
  ∀ (b : HostBook) (s : State) (m : HostMove), s.Inv → m.event.wf = true → b.mayOccur s m = true →
    ∃ t : State, exec m.event s = .next t ∧ t.accepted = true ∧ t.rxQueue = s.rxQueue

/-- A terminal state is owed a `CLEAR` (R162, R163, R216; R167, which the spec derives): every event that may come keeps the host's knowledge, and in a terminal state no frame and no request may come. The book's own choices are log 21 and log 25 to log 27. -/
def Obligations.TerminalStateOwesAClear : Prop :=
  ∀ (b : HostBook) (s t : State) (m : HostMove), b.Knows s → b.mayOccur s m = true → exec m.event s = .next t →
    (b.after m t).Knows t ∧
    (s.session.rxReady = false → m.event.frame = none ∧ ∀ mode pid extra, m.event ≠ .encodeReq mode pid extra)

/-! ### Reset and invariant -/

/-- The reset state (R34, the spec's decision D18): `Idle`, ready, nothing readable, no output pending. -/
def Obligations.ResetValues : Prop :=
  State.reset.session.st = 0#2 ∧ State.reset.session.rxReady = true ∧ State.reset.session.busy = false ∧
  State.reset.session.done = false ∧ State.reset.session.error = false ∧
  State.reset.session.deadlineArmed = false ∧ (∀ a, State.reset.session.readByte a = none) ∧
  State.reset.session.errCode = none ∧ State.reset.session.heldResult = none ∧
  State.reset.out = .none ∧ State.reset.cfg.reqId = 0x7DF#29

/-- The invariant holds after reset. -/
def Obligations.ResetMeetsTheInvariant : Prop := State.reset.Inv

/-- Every step keeps the invariant of R31: buffer dense and inside its bounds, `bufLen = min(expectedLength, 6 + 7k)` with `nextSequence = (1 + k) mod 16`, a full result in `Complete`, a latched cause in `Aborted`, 8-byte transmitted frames. -/
def Obligations.StepKeepsTheInvariant : Prop :=
  ∀ s t : State, s.Inv → step s = .next t → t.Inv

/-- In every state that meets the invariant every well-formed instruction completes: no fault, no refusal, and the invariant holds after it (R44, R52, R191). -/
def Obligations.EveryInstructionCompletes : Prop :=
  ∀ (i : Instr) (s : State), i.wf = true → s.Inv → ∃ t : State, exec i s = .next t ∧ t.Inv

/-- Reassembly (R41 (b), R122, R125): a First frame declaring `total ≥ 6` bytes, then `max(1, ceil((total - 6) / 7))` Consecutive frames in sequence from whatever senders, deliver the concatenation of the frames' data regions cut to `total`, under the First frame's identifier, and hold it. -/
def Obligations.ReassemblyDeliversTheConcatenation : Prop :=
  ∀ (s : State) (src : Sender) (high : Nibble) (low : Byte) (d : List Byte) (cs : List (Sender × List Byte)),
    s.session.rxReady = true → d.length = 6 → 6 ≤ high.toNat * 256 + low.toNat →
    (∀ c ∈ cs, c.2.length = 7) → cs.length = framesToComplete (high.toNat * 256 + low.toNat) →
    ∃ t : State,
      execAll (.rxFf src high (low :: d) :: consecutiveFrom 1 cs) s = .next t ∧
      t.out = .deliver src.id src.extended ((d ++ cs.flatMap (·.2)).take (high.toNat * 256 + low.toNat)) ∧
      t.session.heldResult = some (src.id, src.extended, (d ++ cs.flatMap (·.2)).take (high.toNat * 256 + low.toNat))
end

