-- ==== Sys2Proof/Laws/Codec.lean ====
section
/-! SUPPORT. The codec's laws: PCI bytes and their rows (R62, R81), event images read back, and what a classification can give (R91 to R97). -/

open Sys2Proof.Machine

namespace Sys2Proof.Laws

/-! ### The nibbles of each row's PCI byte -/

theorem hiNibble_pciSf (x : BitVec 3) : hiNibble (pciSf x) = 0#4 := by revert x; decide
theorem loNibble_pciSf (x : BitVec 3) : loNibble (pciSf x) = 0#1 ++ x := by revert x; decide
theorem hiNibble_pciSfLenRsvd (x : BitVec 3) : hiNibble (pciSfLenRsvd x) = 0#4 := by revert x; decide
theorem loNibble_pciSfLenRsvd (x : BitVec 3) : (loNibble (pciSfLenRsvd x)).toNat > 7 := by revert x; decide
theorem hiNibble_pciFf (x : Nibble) : hiNibble (pciFf x) = 1#4 := by revert x; decide
theorem loNibble_pciFf (x : Nibble) : loNibble (pciFf x) = x := by revert x; decide
theorem hiNibble_pciCf (x : Nibble) : hiNibble (pciCf x) = 2#4 := by revert x; decide
theorem loNibble_pciCf (x : Nibble) : loNibble (pciCf x) = x := by revert x; decide
theorem hiNibble_pciFc (x : Nibble) : hiNibble (pciFc x) = 3#4 := by revert x; decide
theorem loNibble_pciFc (x : Nibble) : loNibble (pciFc x) = x := by revert x; decide
theorem hiNibble_pciRsvd47 (x : BitVec 6) : 4 ≤ (hiNibble (pciRsvd47 x)).toNat := by revert x; decide
theorem hiNibble_pciRsvd8F (x : BitVec 7) : 4 ≤ (hiNibble (pciRsvd8F x)).toNat := by revert x; decide

/-! ### The decoder on each row's PCI byte -/

theorem decodePci_pciSf (src : Sender) (x : BitVec 3) (rest : List Byte) : decodePci src (pciSf x) rest = .rxSf src x rest := by
  have h : ∀ x : BitVec 3, rowMatches 0x80#8 0x80#8 (pciSf x) = false ∧ rowMatches 0xC0#8 0x40#8 (pciSf x) = false ∧
    rowMatches 0xF8#8 0x08#8 (pciSf x) = false ∧ rowMatches 0xF0#8 0x00#8 (pciSf x) = true ∧ (pciSf x).setWidth 3 = x := by decide
  obtain ⟨h1, h2, h3, h4, h5⟩ := h x
  simp [decodePci, h1, h2, h3, h4, h5]

theorem decodePci_pciSfLenRsvd (src : Sender) (x : BitVec 3) (rest : List Byte) :
    decodePci src (pciSfLenRsvd x) rest = .rxSfLenRsvd src x rest := by
  have h : ∀ x : BitVec 3, rowMatches 0x80#8 0x80#8 (pciSfLenRsvd x) = false ∧ rowMatches 0xC0#8 0x40#8 (pciSfLenRsvd x) = false ∧
    rowMatches 0xF8#8 0x08#8 (pciSfLenRsvd x) = true ∧ (pciSfLenRsvd x).setWidth 3 = x := by decide
  obtain ⟨h1, h2, h3, h5⟩ := h x
  simp [decodePci, h1, h2, h3, h5]

theorem decodePci_pciFf (src : Sender) (x : Nibble) (rest : List Byte) : decodePci src (pciFf x) rest = .rxFf src x rest := by
  have h : ∀ x : Nibble, rowMatches 0x80#8 0x80#8 (pciFf x) = false ∧ rowMatches 0xC0#8 0x40#8 (pciFf x) = false ∧
    rowMatches 0xF8#8 0x08#8 (pciFf x) = false ∧ rowMatches 0xF0#8 0x00#8 (pciFf x) = false ∧
    rowMatches 0xF0#8 0x10#8 (pciFf x) = true ∧ loNibble (pciFf x) = x := by decide
  obtain ⟨h1, h2, h3, h4, h5, h6⟩ := h x
  simp [decodePci, h1, h2, h3, h4, h5, h6]

theorem decodePci_pciCf (src : Sender) (x : Nibble) (rest : List Byte) : decodePci src (pciCf x) rest = .rxCf src x rest := by
  have h : ∀ x : Nibble, rowMatches 0x80#8 0x80#8 (pciCf x) = false ∧ rowMatches 0xC0#8 0x40#8 (pciCf x) = false ∧
    rowMatches 0xF8#8 0x08#8 (pciCf x) = false ∧ rowMatches 0xF0#8 0x00#8 (pciCf x) = false ∧
    rowMatches 0xF0#8 0x10#8 (pciCf x) = false ∧ rowMatches 0xF0#8 0x20#8 (pciCf x) = true ∧ loNibble (pciCf x) = x := by decide
  obtain ⟨h1, h2, h3, h4, h5, h6, h7⟩ := h x
  simp [decodePci, h1, h2, h3, h4, h5, h6, h7]

theorem decodePci_pciFc (src : Sender) (x : Nibble) (rest : List Byte) : decodePci src (pciFc x) rest = .rxFc src x rest := by
  have h : ∀ x : Nibble, rowMatches 0x80#8 0x80#8 (pciFc x) = false ∧ rowMatches 0xC0#8 0x40#8 (pciFc x) = false ∧
    rowMatches 0xF8#8 0x08#8 (pciFc x) = false ∧ rowMatches 0xF0#8 0x00#8 (pciFc x) = false ∧
    rowMatches 0xF0#8 0x10#8 (pciFc x) = false ∧ rowMatches 0xF0#8 0x20#8 (pciFc x) = false ∧ loNibble (pciFc x) = x := by decide
  obtain ⟨h1, h2, h3, h4, h5, h6, h7⟩ := h x
  simp [decodePci, h1, h2, h3, h4, h5, h6, h7]

theorem decodePci_pciRsvd47 (src : Sender) (x : BitVec 6) (rest : List Byte) :
    decodePci src (pciRsvd47 x) rest = .rxPciRsvd47 src x rest := by
  have h : ∀ x : BitVec 6, rowMatches 0x80#8 0x80#8 (pciRsvd47 x) = false ∧ rowMatches 0xC0#8 0x40#8 (pciRsvd47 x) = true ∧
    (pciRsvd47 x).setWidth 6 = x := by decide
  obtain ⟨h1, h2, h5⟩ := h x
  simp [decodePci, h1, h2, h5]

theorem decodePci_pciRsvd8F (src : Sender) (x : BitVec 7) (rest : List Byte) :
    decodePci src (pciRsvd8F x) rest = .rxPciRsvd8F src x rest := by
  have h : ∀ x : BitVec 7, rowMatches 0x80#8 0x80#8 (pciRsvd8F x) = true ∧ (pciRsvd8F x).setWidth 7 = x := by decide
  obtain ⟨h1, h5⟩ := h x
  simp [decodePci, h1, h5]

/-- Every byte is the PCI byte of one of the seven rows. -/
theorem decodePci_cases (b : Byte) :
    (∃ x, b = pciSf x) ∨ (∃ x, b = pciSfLenRsvd x) ∨ (∃ x, b = pciFf x) ∨ (∃ x, b = pciCf x) ∨ (∃ x, b = pciFc x) ∨
      (∃ x, b = pciRsvd47 x) ∨ (∃ x, b = pciRsvd8F x) := by
  have h : ∀ b : Byte,
    (b = pciSf (b.setWidth 3)) ∨ (b = pciSfLenRsvd (b.setWidth 3)) ∨ (b = pciFf (b.setWidth 4)) ∨ (b = pciCf (b.setWidth 4)) ∨ (b = pciFc (b.setWidth 4)) ∨
      (b = pciRsvd47 (b.setWidth 6)) ∨ (b = pciRsvd8F (b.setWidth 7)) := by decide
  rcases h b with h | h | h | h | h | h | h
  · exact .inl ⟨_, h⟩
  · exact .inr (.inl ⟨_, h⟩)
  · exact .inr (.inr (.inl ⟨_, h⟩))
  · exact .inr (.inr (.inr (.inl ⟨_, h⟩)))
  · exact .inr (.inr (.inr (.inr (.inl ⟨_, h⟩))))
  · exact .inr (.inr (.inr (.inr (.inr (.inl ⟨_, h⟩)))))
  · exact .inr (.inr (.inr (.inr (.inr (.inr ⟨_, h⟩)))))

/-- The row of a PCI byte stands for that byte and the bytes after it. -/
theorem frame_decodePci (src : Sender) (b : Byte) (rest : List Byte) : (decodePci src b rest).frame = some (dataFrame src (b :: rest)) := by
  rcases decodePci_cases b with ⟨x, rfl⟩ | ⟨x, rfl⟩ | ⟨x, rfl⟩ | ⟨x, rfl⟩ | ⟨x, rfl⟩ | ⟨x, rfl⟩ | ⟨x, rfl⟩ <;>
  simp only [decodePci_pciSf, decodePci_pciSfLenRsvd, decodePci_pciFf, decodePci_pciCf, decodePci_pciFc, decodePci_pciRsvd47, decodePci_pciRsvd8F, Instr.frame]

/-! ### Images -/

/-- The four bytes of a joined identifier. -/
theorem join_slices (x : BitVec 5) (b2 b1 b0 : Byte) :
    (x ++ b2 ++ b1 ++ b0 : BitVec (5 + 8 + 8 + 8)).extractLsb' 24 5 = x ∧
    (x ++ b2 ++ b1 ++ b0 : BitVec (5 + 8 + 8 + 8)).extractLsb' 16 8 = b2 ∧
    (x ++ b2 ++ b1 ++ b0 : BitVec (5 + 8 + 8 + 8)).extractLsb' 8 8 = b1 ∧
    (x ++ b2 ++ b1 ++ b0 : BitVec (5 + 8 + 8 + 8)).extractLsb' 0 8 = b0 := by
  refine ⟨?_, ?_, ?_, ?_⟩ <;> apply BitVec.eq_of_getLsbD_eq <;> intro i hi <;>
    simp only [BitVec.getLsbD_extractLsb', BitVec.getLsbD_append, hi, decide_true, Bool.true_and]
  · simp [show ¬ 24 + i < 8 by omega, show ¬ 24 + i - 8 < 8 by omega, show ¬ 24 + i - 8 - 8 < 8 by omega, show 24 + i - 8 - 8 - 8 = i by omega]
  · simp [show ¬ 16 + i < 8 by omega, show ¬ 16 + i - 8 < 8 by omega, show 16 + i - 8 - 8 = i by omega]; omega
  · simp [show ¬ 8 + i < 8 by omega, show 8 + i - 8 = i by omega]; omega
  · simp [hi]

/-- An identifier is its four slices joined. -/
theorem slices_join (id : Identifier) :
    (id.extractLsb' 24 5 ++ id.extractLsb' 16 8 ++ id.extractLsb' 8 8 ++ id.extractLsb' 0 8 : BitVec (5 + 8 + 8 + 8)) = id := by
  apply BitVec.eq_of_getLsbD_eq
  intro i hi
  simp only [BitVec.getLsbD_extractLsb', BitVec.getLsbD_append]
  rcases Nat.lt_or_ge i 8 with h0 | h0
  · simp [h0]
  · rcases Nat.lt_or_ge i 16 with h1 | h1
    · simp [show ¬ i < 8 by omega, show i - 8 < 8 by omega, show 8 + (i - 8) = i by omega]
    · rcases Nat.lt_or_ge i 24 with h2 | h2
      · simp [show ¬ i < 8 by omega, show ¬ i - 8 < 8 by omega, show i - 8 - 8 < 8 by omega, show 16 + (i - 8 - 8) = i by omega]
      · simp [show ¬ i < 8 by omega, show ¬ i - 8 < 8 by omega, show ¬ i - 8 - 8 < 8 by omega, show i - 8 - 8 - 8 < 5 by omega, show 24 + (i - 8 - 8 - 8) = i by omega]

theorem idImage_join (id : Identifier) :
    ((0#3 ++ id.extractLsb' 24 5 : BitVec 8).extractLsb' 0 5 ++ id.extractLsb' 16 8 ++ id.extractLsb' 8 8 ++ id.extractLsb' 0 8 : BitVec 29) = id := by
  have low : ∀ x : BitVec 5, (0#3 ++ x : BitVec 8).extractLsb' 0 5 = x := by decide
  rw [low]; exact slices_join id

/-- An identifier of the selected width is read back from its image. -/
theorem parseId_idImage (id : Identifier) (ext : Bool) (h : idFits id ext = true) :
    parseId ext (0#3 ++ id.extractLsb' 24 5) (id.extractLsb' 16 8) (id.extractLsb' 8 8) (id.extractLsb' 0 8) = some id := by
  have top : ∀ x : BitVec 5, (0#3 ++ x : BitVec 8).extractLsb' 5 3 = 0#3 := by decide
  simp only [parseId, idImage_join, top, h, and_self, if_true]

/-- What is read as an identifier is the image of one of the selected width. -/
theorem parseId_some (ext : Bool) (b3 b2 b1 b0 : Byte) (id : Identifier) (h : parseId ext b3 b2 b1 b0 = some id) :
    idFits id ext = true ∧ idImage id = [b3, b2, b1, b0] := by
  simp only [parseId] at h
  split at h
  · rename_i hc
    cases h
    refine ⟨hc.2, ?_⟩
    have h3 : ∀ b : Byte, b.extractLsb' 5 3 = 0#3 → 0#3 ++ b.extractLsb' 0 5 = b := by decide
    obtain ⟨i3, i2, i1, i0⟩ := join_slices (b3.extractLsb' 0 5) b2 b1 b0
    simp only [idImage]
    rw [show BitVec.extractLsb' 24 5 (b3.extractLsb' 0 5 ++ b2 ++ b1 ++ b0 : BitVec 29) = _ from i3,
      show BitVec.extractLsb' 16 8 (b3.extractLsb' 0 5 ++ b2 ++ b1 ++ b0 : BitVec 29) = _ from i2,
      show BitVec.extractLsb' 8 8 (b3.extractLsb' 0 5 ++ b2 ++ b1 ++ b0 : BitVec 29) = _ from i1,
      show BitVec.extractLsb' 0 8 (b3.extractLsb' 0 5 ++ b2 ++ b1 ++ b0 : BitVec 29) = _ from i0, h3 b3 hc.1]
  · cases h

/-- A header byte is its fields joined. -/
theorem header_join (b : Byte) (h : b.extractLsb' 6 2 = 0#2) :
    0#2 ++ BitVec.ofBool (b.getLsbD 5) ++ BitVec.ofBool (b.getLsbD 4) ++ BitVec.ofNat 4 (loNibble b).toNat = b := by
  revert b; decide

/-- The fields of a header image. -/
theorem header_fields (f : CanFrame) (h : f.data.length ≤ 8) :
    (headerImage f).extractLsb' 6 2 = 0#2 ∧ (headerImage f).getLsbD 4 = f.extended ∧ (headerImage f).getLsbD 5 = f.rtr ∧
      (loNibble (headerImage f)).toNat = f.data.length := by
  have key : ∀ (r e : Bool) (n : Fin 9),
      (0#2 ++ BitVec.ofBool r ++ BitVec.ofBool e ++ BitVec.ofNat 4 n : BitVec 8).extractLsb' 6 2 = 0#2 ∧
      (0#2 ++ BitVec.ofBool r ++ BitVec.ofBool e ++ BitVec.ofNat 4 n : BitVec 8).getLsbD 4 = e ∧
      (0#2 ++ BitVec.ofBool r ++ BitVec.ofBool e ++ BitVec.ofNat 4 n : BitVec 8).getLsbD 5 = r ∧
      (loNibble (0#2 ++ BitVec.ofBool r ++ BitVec.ofBool e ++ BitVec.ofNat 4 n : BitVec 8)).toNat = n := by decide
  exact key f.rtr f.extended ⟨f.data.length, by omega⟩

/-- What is read as a frame is the image of a well-formed one. -/
theorem parseFrame_ok (l : List Byte) (f : CanFrame) (h : parseFrame l = .ok f) : f.wf = true ∧ frameImage f = l := by
  match l, h with
  | hd :: b3 :: b2 :: b1 :: b0 :: data, h =>
    simp only [parseFrame] at h
    split at h
    · cases h
    · split at h
      · cases h
      · split at h
        · cases h
        · split at h
          · cases h
          · rename_i h6 h8 hl _ id hid
            cases h
            obtain ⟨hf, hi⟩ := parseId_some _ _ _ _ _ _ hid
            simp only [ne_eq, not_not] at h6 hl
            refine ⟨by simp only [CanFrame.wf, hf, hl, Bool.true_and, decide_eq_true_eq]; omega, ?_⟩
            simp only [frameImage, headerImage, hl, hi, header_join hd h6]; rfl

/-- A well-formed frame is read back from its image. -/
theorem parseFrame_frameImage (f : CanFrame) (h : f.wf = true) : parseFrame (frameImage f) = .ok f := by
  simp only [CanFrame.wf, Bool.and_eq_true, decide_eq_true_eq] at h
  obtain ⟨h1, h2, h3, h4⟩ := header_fields f h.2
  simp only [frameImage, idImage, List.cons_append, List.nil_append, parseFrame, h1, h2, h3, h4,
    parseId_idImage f.id f.extended h.1]
  have : f.data.length ≤ 8 := h.2
  simp [show ¬ 8 < f.data.length by omega]

/-- An RX image decodes to the row of its frame. -/
theorem decode_rxImage (f : CanFrame) (h : f.wf = true) : decode (rxImage f) = .ok (decodeRx f) := by
  simp [decode, rxImage, parseFramed, parseFrame_frameImage f h]

/-- The image of a frame's row is the frame's RX image. -/
theorem encode_decodeRx (f : CanFrame) : encode (decodeRx f) = rxImage f := by
  obtain ⟨id, ext, rtr, data⟩ := f
  cases rtr
  · cases data with
    | nil => simp [decodeRx, encode, CanFrame.sender, dataFrame]
    | cons b rest =>
        simp only [decodeRx]
        rcases decodePci_cases b with ⟨x, rfl⟩ | ⟨x, rfl⟩ | ⟨x, rfl⟩ | ⟨x, rfl⟩ | ⟨x, rfl⟩ | ⟨x, rfl⟩ | ⟨x, rfl⟩ <;>
        simp [decodePci_pciSf, decodePci_pciSfLenRsvd, decodePci_pciFf, decodePci_pciCf, decodePci_pciFc, decodePci_pciRsvd47, decodePci_pciRsvd8F, encode, CanFrame.sender, dataFrame]
  · simp [decodeRx, encode, CanFrame.sender]

/-- What a request image is read as. -/
theorem parseRequest_ok (k) (ops : List Byte) (i : Instr) (h : parseRequest k ops = .ok i) :
    ∃ m p e, i = k m p e ∧ ops = requestImage m p e := by
  match ops, h with
  | m :: flag :: ops, h =>
    simp only [parseRequest] at h
    split at h
    · cases h; exact ⟨m, none, ops, rfl, by simp [requestImage, *]⟩
    · split at h
      · split at h
        · cases h; rename_i p e; exact ⟨m, some p, e, rfl, by simp [requestImage, *]⟩
        · cases h
      · cases h

/-- What a framed image is read as. -/
theorem parseFramed_ok (k) (ops : List Byte) (i : Instr) (h : parseFramed k ops = .ok i) :
    ∃ f, i = k f ∧ f.wf = true ∧ frameImage f = ops := by
  unfold parseFramed at h
  split at h
  · cases h
  · rename_i f hf; cases h; exact ⟨f, rfl, parseFrame_ok _ _ hf⟩

/-! ### Classification -/

/-- The First frame's length as a number (R68). -/
theorem totalLength_toNat (h : Nibble) (l : Byte) : (totalLength h l).toNat = h.toNat * 256 + l.toNat := by
  simp only [totalLength, BitVec.toNat_append, Nat.shiftLeft_eq]
  rw [Nat.mul_comm, ← Nat.two_pow_add_eq_or_of_lt l.isLt]

/-- A PCI type of 4 or more fails classification (R96). -/
theorem classify_reserved (b : Byte) (rest : List Byte) (h : 4 ≤ (hiNibble b).toNat) :
    classify (b :: rest) = .error .invalidPciType := by
  have key : ∀ b : Byte, 4 ≤ (hiNibble b).toNat → hiNibble b ≠ 0#4 ∧ hiNibble b ≠ 1#4 ∧ hiNibble b ≠ 2#4 ∧ hiNibble b ≠ 3#4 := by decide
  simp [classify, key b h]

theorem classify_pciSf (x : BitVec 3) (rest) : classify (pciSf x :: rest) = classifySf (0#1 ++ x) rest := by
  simp [classify, hiNibble_pciSf, loNibble_pciSf]

theorem classify_pciSfLenRsvd (x : BitVec 3) (rest) : classify (pciSfLenRsvd x :: rest) = .error .singleLengthInvalid := by
  have := loNibble_pciSfLenRsvd x
  simp [classify, hiNibble_pciSfLenRsvd, classifySf, Config.sfMax]; intro; omega

theorem classify_pciFf (x : Nibble) (rest) : classify (pciFf x :: rest) = classifyFf x rest := by
  simp [classify, hiNibble_pciFf, loNibble_pciFf]

theorem classify_pciCf (x : Nibble) (rest) : classify (pciCf x :: rest) = classifyCf x rest := by
  simp [classify, hiNibble_pciCf, loNibble_pciCf]

theorem classify_pciFc (x : Nibble) (rest) : classify (pciFc x :: rest) = classifyFc x rest := by
  simp [classify, hiNibble_pciFc, loNibble_pciFc]

theorem classify_pciRsvd47 (x : BitVec 6) (rest) : classify (pciRsvd47 x :: rest) = .error .invalidPciType := classify_reserved _ _ (hiNibble_pciRsvd47 x)

theorem classify_pciRsvd8F (x : BitVec 7) (rest) : classify (pciRsvd8F x :: rest) = .error .invalidPciType := classify_reserved _ _ (hiNibble_pciRsvd8F x)

/-- A Consecutive frame's data region has 7 bytes (R65). -/
theorem classify_consecutive (data : List Byte) (sn d) (h : classify data = .ok (.consecutive sn d)) : d.length = 7 := by
  unfold classify at h; split at h
  · cases h
  · repeat' split at h
    · unfold classifySf at h; split at h <;> try split at h
      all_goals cases h
    · unfold classifyFf at h; split at h <;> try split at h
      all_goals cases h
    · unfold classifyCf at h; split at h
      · cases h
      · cases h; simp [Config.cfData] at *; omega
    · unfold classifyFc at h; split at h <;> cases h
    · cases h

/-- A First frame's data region has 6 bytes (R64). -/
theorem classify_first (data : List Byte) (sn d) (h : classify data = .ok (.first sn d)) : d.length = 6 := by
  unfold classify at h; split at h
  · cases h
  · repeat' split at h
    · unfold classifySf at h; split at h <;> try split at h
      all_goals cases h
    · unfold classifyFf at h; split at h <;> try split at h
      · cases h
      · cases h
      · cases h; simp [Config.ffData] at *; omega
    · unfold classifyCf at h; split at h <;> cases h
    · unfold classifyFc at h; split at h <;> cases h
    · cases h

/-- A Single frame's data region has at most 7 bytes (R63). -/
theorem classify_single (data : List Byte) (sn d) (h : classify data = .ok (.single sn d)) : d.length ≤ 7 := by
  unfold classify at h; split at h
  · cases h
  · repeat' split at h
    · unfold classifySf at h; split at h <;> try split at h
      · cases h
      · cases h
      · cases h; simp [Config.sfMax] at *; omega
    · unfold classifyFf at h; split at h <;> try split at h
      all_goals cases h
    · unfold classifyCf at h; split at h <;> cases h
    · unfold classifyFc at h; split at h <;> cases h
    · cases h

/-- Classification never fails with `EncodeError` (R75). -/
theorem classify_error (data : List Byte) (e) (h : classify data = .error e) : e ≠ .encodeError := by
  unfold classify at h; split at h
  · cases h; decide
  · repeat' split at h
    · unfold classifySf at h; split at h <;> try split at h
      all_goals cases h; try decide
    · unfold classifyFf at h; split at h <;> try split at h
      all_goals cases h; try decide
    · unfold classifyCf at h; split at h <;> cases h; decide
    · unfold classifyFc at h; split at h <;> cases h; decide
    · cases h; decide

/-! ### Transmitted frames -/

theorem narrow_toNat (id : Identifier) : (narrow id).toNat = id.toNat % 2 ^ 11 := by
  simp only [narrow, BitVec.toNat_setWidth]; omega

/-- A narrowed identifier fits either width (R25). -/
theorem narrow_fits (id : Identifier) (e : Bool) : idFits (narrow id) e = true := by
  have : (narrow id).toNat < 2 ^ 11 := by
    simp only [narrow, BitVec.toNat_setWidth]
    omega
  simp only [idFits, this, decide_true, Bool.or_true]

/-- The flow-control identifier has the width its flag selects (R5, R60). -/
theorem fcId_fits (cfg : Cfg) (src : Sender) : idFits (fcId cfg src) src.extended = true := by
  unfold fcId
  split
  · unfold defaultFcId; split
    · rename_i h; simp [h, idFits]
    · exact narrow_fits _ _
  · split
    · rename_i h; simp [h, idFits]
    · exact narrow_fits _ _

end Sys2Proof.Laws
end

