-- ==== Sys2Proof/Laws/Memory.lean ====
section
/-! SUPPORT. The buffer's laws (R22, R44): what a read gives after a write, that every write keeps the canonical form, and when a read succeeds. -/

open Sys2Proof.Machine

namespace Sys2Proof.Laws

/-- A byte read after a write is the byte written at that address, and the old one elsewhere. -/
theorem read_write (m : Memory) (x : Nat) (v : Byte) (y : Nat) :
    Memory.read (Memory.write m x v) y = if x = y then some v else Memory.read m y := by
  induction m with
  | nil => simp [Memory.write, Memory.read]
  | cons p m ih =>
    obtain ⟨a, w⟩ := p
    simp only [Memory.write]
    split
    · simp [Memory.read]
    · split
      · subst x; simp only [Memory.read]; split <;> simp_all
      · simp only [Memory.read, ih]; split <;> simp_all

/-- Below every listed address nothing is held. -/
theorem read_none_of_lt (m : Memory) (x : Nat) (h : ∀ p ∈ m, x < p.1) : Memory.read m x = none := by
  induction m with
  | nil => rfl
  | cons p m ih =>
    obtain ⟨a, w⟩ := p
    simp only [List.mem_cons, forall_eq_or_imp] at h
    simp [Memory.read, ih h.2, Nat.ne_of_gt h.1]

/-- A cell of a written buffer is the written one or an old one. -/
theorem mem_write (m : Memory) (x : Nat) (v : Byte) (p : Host.Cell) (h : p ∈ Memory.write m x v) :
    p = (x, v) ∨ p ∈ m := by
  induction m with
  | nil => simpa [Memory.write] using h
  | cons q m ih =>
    obtain ⟨a, w⟩ := q
    simp only [Memory.write] at h
    split at h
    · simpa using h
    · split at h
      · simp at h; rcases h with h | h <;> simp [h]
      · simp at h; rcases h with h | h
        · simp [h]
        · rcases ih h with h | h <;> simp [h]

/-- One write keeps the canonical form. -/
theorem wf_write (m : Memory) (x : Nat) (v : Byte) (h : m.wf) (hx : x < Config.bufBytes) : (Memory.write m x v).wf := by
  refine ⟨?_, fun p hp => ?_⟩
  · obtain ⟨h, -⟩ := h
    induction m with
    | nil => simp [Memory.write]
    | cons q m ih =>
      obtain ⟨a, w⟩ := q
      rw [List.pairwise_cons] at h
      simp only [Memory.write]
      split
      · rename_i hlt
        refine List.pairwise_cons.2 ⟨fun p hp => ?_, List.pairwise_cons.2 h⟩
        rcases List.mem_cons.1 hp with rfl | hp
        · exact hlt
        · exact Nat.lt_trans hlt (h.1 p hp)
      · split
        · rename_i heq; subst heq; exact List.pairwise_cons.2 h
        · refine List.pairwise_cons.2 ⟨fun p hp => ?_, ih h.2⟩
          rcases mem_write m x v p hp with rfl | hp
          · show a < x; omega
          · exact h.1 p hp
  · rcases mem_write m x v p hp with rfl | hp
    · exact hx
    · exact h.2 p hp

/-- Writing consecutive bytes keeps the canonical form. -/
theorem wf_writeBytes (m : Memory) (a : Nat) (vs : List Byte) (h : m.wf) (ha : a + vs.length ≤ Config.bufBytes) :
    (Memory.writeBytes m a vs).wf := by
  induction vs generalizing m a with
  | nil => exact h
  | cons v vs ih =>
    simp only [List.length_cons] at ha
    exact ih _ _ (wf_write m a v h (by omega)) (by omega)

/-- Writing consecutive bytes sets exactly the bytes at its addresses. -/
theorem read_writeBytes (m : Memory) (a : Nat) (vs : List Byte) (x : Nat) :
    Memory.read (Memory.writeBytes m a vs) x =
      if a ≤ x ∧ x < a + vs.length then vs[x - a]? else Memory.read m x := by
  induction vs generalizing m a with
  | nil => simp [Memory.writeBytes]
  | cons v vs ih =>
    rw [Memory.writeBytes, ih, read_write]
    simp only [List.length_cons]
    by_cases hx : a = x
    · subst hx; simp
    · by_cases h1 : a + 1 ≤ x ∧ x < a + 1 + vs.length
      · rw [if_pos h1, if_pos (by omega)]
        obtain ⟨k, rfl⟩ := Nat.exists_eq_add_of_le h1.1
        rw [show a + 1 + k - a = k + 1 by omega, show a + 1 + k - (a + 1) = k by omega]; rfl
      · rw [if_neg h1, if_neg hx, if_neg (by omega)]

/-- Reading consecutive bytes gives the bytes at their addresses. -/
theorem readBytes_spec (m : Memory) (a n : Nat) (vs : List Byte) :
    Memory.readBytes m a n = some vs ↔ vs.length = n ∧ ∀ j, j < n → Memory.read m (a + j) = vs[j]? := by
  induction n generalizing a vs with
  | zero => simp [Memory.readBytes, List.length_eq_zero_iff, @eq_comm _ [] vs]
  | succ n ih =>
    constructor
    · intro h
      simp only [Memory.readBytes] at h
      split at h
      · rename_i v ws hv hws
        obtain ⟨hl, hj⟩ := (ih _ _).1 hws
        cases h
        refine ⟨by simp [hl], fun j hjn => ?_⟩
        cases j with
        | zero => simpa using hv
        | succ j => have := hj j (by omega); rw [show a + (j + 1) = a + 1 + j by omega, this]; rfl
      · cases h
    · rintro ⟨hl, hj⟩
      cases vs with
      | nil => simp at hl
      | cons v ws =>
        have h0 : Memory.read m a = some v := by simpa using hj 0 (by omega)
        have h1 : Memory.readBytes m (a + 1) n = some ws :=
          (ih _ _).2 ⟨by simpa using hl, fun j hjn => by
            have := hj (j + 1) (by omega); rw [show a + (j + 1) = a + 1 + j by omega] at this; rw [this]; rfl⟩
        simp [Memory.readBytes, h0, h1]

/-- A buffer that holds exactly the addresses below its length is in canonical form. -/
theorem wf_of_holds (m : Memory) (n : Count) (h : bufferHolds m n) : m.wf := by
  unfold bufferHolds at h
  refine ⟨?_, fun p hp => ?_⟩
  · have := List.pairwise_lt_range (n := n.toNat)
    rw [← h, List.pairwise_map] at this; exact this
  · have : p.1 ∈ List.range n.toNat := by rw [← h]; exact List.mem_map_of_mem hp
    have := List.mem_range.1 this; have := n.isLt; simp only [Config.bufBytes]; omega

/-- A write past every listed address appends. -/
theorem write_end (m : Memory) (x : Nat) (v : Byte) (h : ∀ p ∈ m, p.1 < x) : Memory.write m x v = m ++ [(x, v)] := by
  induction m with
  | nil => rfl
  | cons p m ih =>
    obtain ⟨a, w⟩ := p
    simp only [List.mem_cons, forall_eq_or_imp] at h
    rw [Memory.write, if_neg (by omega), if_neg (by omega), ih h.2]; rfl

/-- Appending at the end of a dense buffer leaves it dense (R22). -/
theorem addresses_writeBytes (m : Memory) (n : Nat) (vs : List Byte) (h : m.map Prod.fst = List.range n) :
    (Memory.writeBytes m n vs).map Prod.fst = List.range (n + vs.length) := by
  induction vs generalizing m n with
  | nil => simpa [Memory.writeBytes] using h
  | cons v vs ih =>
    have hlt : ∀ p ∈ m, p.1 < n := fun p hp => by
      have : p.1 ∈ List.range n := by rw [← h]; exact List.mem_map_of_mem hp
      exact List.mem_range.1 this
    rw [Memory.writeBytes, write_end m n v hlt, ih _ (n + 1) (by simp [h, List.range_succ])]
    simp only [List.length_cons]; congr 1; omega

/-- A listed address reads as a value. -/
theorem read_of_mem_addr (m : Memory) (a : Nat) (h : a ∈ m.map Prod.fst) : ∃ v, Memory.read m a = some v := by
  induction m with
  | nil => simp at h
  | cons p m ih =>
    obtain ⟨b, w⟩ := p
    simp only [Memory.read]
    by_cases hb : b = a
    · exact ⟨w, by simp [hb]⟩
    · rw [if_neg hb]; apply ih; simp at h; rcases h with h | h
      · exact absurd h.symm hb
      · simpa using h

/-- Consecutive bytes that each hold a value can be read. -/
theorem readBytes_total (m : Memory) (a n : Nat) (h : ∀ j, j < n → ∃ v, Memory.read m (a + j) = some v) :
    ∃ vs, Memory.readBytes m a n = some vs := by
  induction n generalizing a with
  | zero => exact ⟨[], rfl⟩
  | succ n ih =>
    obtain ⟨v, hv⟩ := h 0 (by omega)
    obtain ⟨vs, hvs⟩ := ih (a + 1) fun j hj => by
      have := h (j + 1) (by omega); rwa [show a + (j + 1) = a + 1 + j by omega] at this
    exact ⟨v :: vs, by simp only [Nat.add_zero] at hv; simp [Memory.readBytes, hv, hvs]⟩

/-- The empty buffer is in canonical form: what a new session starts from, since reset holds no buffer (R34). -/
theorem wf_empty : Memory.wf [] := ⟨List.Pairwise.nil, by simp⟩

/-- `MemWrite` answers the written buffer (R44). -/
theorem memWrite_some (m : Memory) (a : Nat) (vs : List Byte) (m' : Memory) (h : memWrite m a vs = some m') : m' = Memory.writeBytes m a vs := by
  unfold memWrite at h; split at h <;> cases h; rfl

/-- `MemWrite` keeps the canonical form (R44). -/
theorem wf_memWrite (m : Memory) (a : Nat) (vs : List Byte) (m' : Memory) (h : memWrite m a vs = some m') (hw : m.wf) :
    m'.wf := by
  unfold memWrite at h
  split at h
  · rename_i hl; cases h; exact wf_writeBytes m a vs hw hl
  · cases h

/-- A First frame's six bytes fit the buffer (R52). -/
theorem first_memWrite (d : List Byte) (h : d.length ≤ 6) : memWrite [] 0 d = some (Memory.writeBytes [] 0 d) := by
  simp only [memWrite, Config.bufBytes]; rw [if_pos (by omega)]

end Sys2Proof.Laws
end

