-- ==== Sys2Proof/Laws/State.lean ====
section
/-! SUPPORT. One lemma for each field of State after each named update, so that no proof unfolds a record update. -/

open Sys2Proof.Machine

namespace Sys2Proof.Laws

/-! ### `quiet` -/

@[simp] theorem quiet_session (s : State) : (quiet s).session = s.session := rfl
@[simp] theorem quiet_cfg (s : State) : (quiet s).cfg = s.cfg := rfl
@[simp] theorem quiet_out (s : State) : (quiet s).out = .none := rfl
@[simp] theorem quiet_codec (s : State) : (quiet s).codec = .none := rfl
@[simp] theorem quiet_accepted (s : State) : (quiet s).accepted = true := rfl
@[simp] theorem quiet_inputs (s : State) : (quiet s).inputs = s.inputs := rfl
@[simp] theorem quiet_rxQueue (s : State) : (quiet s).rxQueue = s.rxQueue := rfl
@[simp] theorem quiet_txQueue (s : State) : (quiet s).txQueue = s.txQueue := rfl
@[simp] theorem quiet_tick (s : State) : (quiet s).tick = s.tick := rfl

/-! ### `showCodec` -/

@[simp] theorem showCodec_session (c : CodecOut) (s : State) : (showCodec c s).session = s.session := rfl
@[simp] theorem showCodec_cfg (c : CodecOut) (s : State) : (showCodec c s).cfg = s.cfg := rfl
@[simp] theorem showCodec_out (c : CodecOut) (s : State) : (showCodec c s).out = .none := rfl
@[simp] theorem showCodec_codec (c : CodecOut) (s : State) : (showCodec c s).codec = c := rfl
@[simp] theorem showCodec_accepted (c : CodecOut) (s : State) : (showCodec c s).accepted = true := rfl
@[simp] theorem showCodec_inputs (c : CodecOut) (s : State) : (showCodec c s).inputs = s.inputs := rfl
@[simp] theorem showCodec_rxQueue (c : CodecOut) (s : State) : (showCodec c s).rxQueue = s.rxQueue := rfl
@[simp] theorem showCodec_txQueue (c : CodecOut) (s : State) : (showCodec c s).txQueue = s.txQueue := rfl
@[simp] theorem showCodec_tick (c : CodecOut) (s : State) : (showCodec c s).tick = s.tick := rfl

/-! ### `discardSession` -/

@[simp] theorem discardSession_session (s : State) : (discardSession s).session = .idle := rfl
@[simp] theorem discardSession_cfg (s : State) : (discardSession s).cfg = s.cfg := rfl
@[simp] theorem discardSession_out (s : State) : (discardSession s).out = .none := rfl
@[simp] theorem discardSession_codec (s : State) : (discardSession s).codec = .none := rfl
@[simp] theorem discardSession_accepted (s : State) : (discardSession s).accepted = true := rfl
@[simp] theorem discardSession_inputs (s : State) : (discardSession s).inputs = s.inputs := rfl
@[simp] theorem discardSession_rxQueue (s : State) : (discardSession s).rxQueue = s.rxQueue := rfl
@[simp] theorem discardSession_txQueue (s : State) : (discardSession s).txQueue = s.txQueue := rfl
@[simp] theorem discardSession_tick (s : State) : (discardSession s).tick = s.tick := rfl

/-! ### `atBoundary` -/

@[simp] theorem atBoundary_session (s : State) : (atBoundary s).session = s.session := rfl
@[simp] theorem atBoundary_cfg (s : State) : (atBoundary s).cfg = s.cfg := rfl
@[simp] theorem atBoundary_out (s : State) : (atBoundary s).out = s.out := rfl
@[simp] theorem atBoundary_codec (s : State) : (atBoundary s).codec = s.codec := rfl
@[simp] theorem atBoundary_accepted (s : State) : (atBoundary s).accepted = s.accepted := rfl
@[simp] theorem atBoundary_inputs (s : State) : (atBoundary s).inputs = s.inputs := rfl
@[simp] theorem atBoundary_rxQueue (s : State) : (atBoundary s).rxQueue = s.rxQueue := rfl
@[simp] theorem atBoundary_txQueue (s : State) : (atBoundary s).txQueue = s.txQueue := rfl
@[simp] theorem atBoundary_tick (s : State) : (atBoundary s).tick = s.tick + 1 := rfl

/-! ### `emit` -/

@[simp] theorem emit_session (o : Output) (s : State) : (emit o s).session = s.session := by cases o <;> rfl
@[simp] theorem emit_cfg (o : Output) (s : State) : (emit o s).cfg = s.cfg := by cases o <;> rfl
@[simp] theorem emit_out (o : Output) (s : State) : (emit o s).out = o := by cases o <;> rfl
@[simp] theorem emit_codec (o : Output) (s : State) : (emit o s).codec = .none := by cases o <;> rfl
@[simp] theorem emit_accepted (o : Output) (s : State) : (emit o s).accepted = true := by cases o <;> rfl
@[simp] theorem emit_inputs (o : Output) (s : State) : (emit o s).inputs = s.inputs := by cases o <;> rfl
@[simp] theorem emit_rxQueue (o : Output) (s : State) : (emit o s).rxQueue = s.rxQueue := by cases o <;> rfl
@[simp] theorem emit_tick (o : Output) (s : State) : (emit o s).tick = s.tick := by cases o <;> rfl
@[simp] theorem emit_none_txQueue (s : State) : (emit .none s).txQueue = s.txQueue := rfl
@[simp] theorem emit_tx_txQueue (f : CanFrame) (s : State) : (emit (.tx f) s).txQueue = s.txQueue ++ [f] := rfl
@[simp] theorem emit_deliver_txQueue (i : Identifier) (e : Bool) (p : List Byte) (s : State) :
    (emit (.deliver i e p) s).txQueue = s.txQueue := rfl
@[simp] theorem emit_error_txQueue (c : Cause) (s : State) : (emit (.error c) s).txQueue = s.txQueue := rfl

end Sys2Proof.Laws
end

