-- ==== Sys2Proof/Laws/Ops.lean ====
section
/-! SUPPORT. What each shared operation and each instruction can do, said once (R110 to R120, R188). -/

open Sys2Proof.Machine

namespace Sys2Proof.Laws

/-- The count after an append is at most 4095 (R126 (c)). -/
theorem newLen_lt (r : Receiving) : r.bufLen.toNat + appendCount r < 4096 := by
  have := r.bufLen.isLt; have := r.expectedLength.isLt
  simp only [appendCount, Config.cfData]; omega

/-- Everything an accepted Consecutive frame does (R118). -/
theorem acceptConsecutive_cases (r : Receiving) (d : List Byte) (s t : State) (h : acceptConsecutive r d s = .next t) :
    ∃ buf, memWrite r.buf (appendAddr r) (d.take (appendCount r)) = some buf ∧
      ((r.bufLen.toNat + appendCount r = r.expectedLength.toNat ∧ ∃ p,
        memRead buf (r.bufLen.toNat + appendCount r) 0 r.expectedLength.toNat = some p ∧
        t = { emit (.deliver r.peerId r.peerExt p) s with session := completedSession r buf (r.bufLen.toNat + appendCount r) }) ∨
      (r.bufLen.toNat + appendCount r ≠ r.expectedLength.toNat ∧
        t = { quiet s with session := continuedSession r buf (r.bufLen.toNat + appendCount r) s })) := by
  simp only [acceptConsecutive] at h
  split at h
  · cases h
  · rename_i buf hb
    refine ⟨buf, hb, ?_⟩
    split at h
    · rename_i hl
      split at h
      · cases h
      · rename_i p hp; cases h; exact .inl ⟨hl, p, hp, rfl⟩
    · rename_i hl; cases h; exact .inr ⟨hl, rfl⟩

/-- Everything a classified RX event does while the block is ready (R113 to R120). -/
theorem receiveClassified_cases (src : Sender) (c : Except Cause IsoTpFrame) (s t : State) (hr : s.session.rxReady = true)
    (h : receiveClassified src c s = .next t) :
    (∃ e, (c = .error e ∨ (∃ total d, c = .ok (.first total d) ∧ e = .overflow) ∨ (∃ sn d, c = .ok (.consecutive sn d) ∧ e = .sequenceMismatch)) ∧
        t = { emit (.error e) s with session := .aborted e }) ∨
    (∃ l d, c = .ok (.single l d) ∧ t = emit (.deliver src.id src.extended d) s) ∨
    (∃ total d buf, c = .ok (.first total d) ∧ 6 ≤ total.toNat ∧ memWrite [] 0 d = some buf ∧
        t = { emit (.tx (ctsFrame s.cfg src)) s with session := openedSession src total buf s }) ∨
    (∃ sn d r, c = .ok (.consecutive sn d) ∧ s.session = .awaitingConsecutive r ∧ sn = r.nextSequence ∧ acceptConsecutive r d s = .next t) ∨
    (t = quiet s ∧ ((∃ sn d, c = .ok (.consecutive sn d) ∧ s.session = .idle) ∨ ∃ a b e, c = .ok (.flowControl a b e))) := by
  cases c with
  | error e => cases h; exact .inl ⟨e, .inl rfl, rfl⟩
  | ok v =>
    cases v with
    | single l d => cases h; exact .inr (.inl ⟨l, d, rfl, rfl⟩)
    | first total d =>
      simp only [receiveClassified, receiveFirst] at h
      split at h
      · cases h; exact .inl ⟨_, .inr (.inl ⟨_, _, rfl, rfl⟩), rfl⟩
      · split at h
        · cases h
        · rename_i hl _ buf hb; cases h; exact .inr (.inr (.inl ⟨total, d, buf, rfl, by simpa [Config.ffData] using hl, hb, rfl⟩))
    | consecutive sn d =>
      simp only [receiveClassified, receiveConsecutive] at h
      split at h
      · rename_i r hs
        split at h
        · cases h; exact .inl ⟨_, .inr (.inr ⟨_, _, rfl, rfl⟩), rfl⟩
        · rename_i hn; exact .inr (.inr (.inr (.inl ⟨sn, d, r, rfl, hs, by simpa using hn, h⟩)))
      · rename_i hs; cases h; exact .inr (.inr (.inr (.inr ⟨rfl, .inl ⟨_, _, rfl, hs⟩⟩)))
      · rename_i hs; simp [hs, Session.rxReady] at hr
      · rename_i hs; simp [hs, Session.rxReady] at hr
    | flowControl a b e => cases h; exact .inr (.inr (.inr (.inr ⟨rfl, .inr ⟨_, _, _, rfl⟩⟩)))

/-- Everything an RX event does after the first test of R110. -/
theorem receiveFrame_cases (f : CanFrame) (s t : State) (h : receiveFrame f s = .next t) :
    (f.rtr = true ∧ t = quiet s) ∨ (f.rtr = false ∧ receiveClassified f.sender (classify f.data) s = .next t) := by
  unfold receiveFrame at h
  split at h
  · rename_i hr; cases h; exact .inl ⟨hr, rfl⟩
  · rename_i hr; exact .inr ⟨by simpa using hr, h⟩

/-- Every RX row runs as the dispatch of R110 on its frame. -/
theorem exec_frame (i : Instr) (f : CanFrame) (s : State) (h : i.frame = some f) : exec i s = whenReady f s (receiveFrame f s) := by
  cases i <;> simp only [Instr.frame, Option.some.injEq, reduceCtorEq] at h <;> subst h
  case rxSf => simp [exec, execRxSf, receiveFrame, dataFrame, classify_pciSf, CanFrame.sender]
  case rxSfLenRsvd => simp [exec, execRxSfLenRsvd, receiveFrame, dataFrame, classify_pciSfLenRsvd, receiveClassified]
  case rxFf => simp [exec, execRxFf, receiveFrame, dataFrame, classify_pciFf, CanFrame.sender]
  case rxCf => simp [exec, execRxCf, receiveFrame, dataFrame, classify_pciCf, CanFrame.sender]
  case rxFc => simp [exec, execRxFc, receiveFrame, dataFrame, classify_pciFc, CanFrame.sender]
  case rxPciRsvd47 => simp [exec, execRxPciRsvd47, receiveFrame, dataFrame, classify_pciRsvd47, receiveClassified]
  case rxPciRsvd8F => simp [exec, execRxPciRsvd8F, receiveFrame, dataFrame, classify_pciRsvd8F, receiveClassified]
  case rxEmpty => simp [exec, execRxEmpty, receiveFrame, dataFrame, classify, receiveClassified]
  case rxRtr => simp [exec, execRxRtr, receiveFrame]
  case rxHold => rfl
  case rx => rfl

/-- Everything an instruction does when it answers a next state. -/
theorem exec_cases (i : Instr) (s t : State) (h : exec i s = .next t) :
    (∃ f, i.frame = some f ∧ s.session.rxReady = false ∧ t = { quiet s with accepted := false, rxQueue := s.rxQueue ++ [f] }) ∨
    (∃ f, i.frame = some f ∧ s.session.rxReady = true ∧ receiveFrame f s = .next t) ∨
    (∃ m p e, i = .encodeReq m p e ∧ ((∃ c, t = emit (.error c) s) ∨ ∃ f, encodeRequest s.cfg m p e = .ok f ∧ t = emit (.tx f) s)) ∨
    (∃ c, i.frame = none ∧ t = showCodec c s) ∨
    (i = .expire ∧ s.session.deadlineArmed = true ∧ t = { emit (.error .timeoutError) s with session := .aborted .timeoutError }) ∨
    (i.frame = none ∧ t = { quiet s with accepted := false }) ∨
    ((i = .clear ∨ i = .reset) ∧ t = { quiet s with session := .idle }) := by
  cases hf : i.frame with
  | some f =>
    rw [exec_frame i f s hf] at h
    cases hr : s.session.rxReady
    · simp [whenReady, hr, holdFrame] at h; exact .inl ⟨f, rfl, rfl, h.symm⟩
    · simp [whenReady, hr] at h; exact .inr (.inl ⟨f, rfl, rfl, h⟩)
  | none =>
    cases i <;> simp only [Instr.frame, reduceCtorEq] at hf <;> simp only [exec] at h
    case encodeReq m p e =>
      simp only [execEncodeReq] at h
      split at h <;> cases h
      · exact .inr (.inr (.inl ⟨m, p, e, rfl, .inl ⟨_, rfl⟩⟩))
      · rename_i f hf; exact .inr (.inr (.inl ⟨m, p, e, rfl, .inr ⟨f, hf, rfl⟩⟩))
    case expire =>
      simp only [execExpire] at h
      split at h <;> cases h
      · rename_i ha; exact .inr (.inr (.inr (.inr (.inl ⟨rfl, ha, rfl⟩))))
      · exact .inr (.inr (.inr (.inr (.inr (.inl ⟨rfl, rfl⟩)))))
    case clear => cases h; exact .inr (.inr (.inr (.inr (.inr (.inr ⟨.inl rfl, rfl⟩)))))
    case reset => cases h; exact .inr (.inr (.inr (.inr (.inr (.inr ⟨.inr rfl, rfl⟩)))))
    case evtRsvd5 => cases h; exact .inr (.inr (.inr (.inr (.inr (.inl ⟨rfl, rfl⟩)))))
    case evtRsvd6 => cases h; exact .inr (.inr (.inr (.inr (.inr (.inl ⟨rfl, rfl⟩)))))
    case evtRsvd7 => cases h; exact .inr (.inr (.inr (.inr (.inr (.inl ⟨rfl, rfl⟩)))))
    case classify d => simp only [execClassify] at h; split at h <;> cases h <;> exact .inr (.inr (.inr (.inl ⟨_, rfl, rfl⟩)))
    case encodeFc => cases h; exact .inr (.inr (.inr (.inl ⟨_, rfl, rfl⟩)))
    case fcCts => cases h; exact .inr (.inr (.inr (.inl ⟨_, rfl, rfl⟩)))
    case req => simp only [execReq] at h; split at h <;> cases h <;> exact .inr (.inr (.inr (.inl ⟨_, rfl, rfl⟩)))

/-- An accepted Consecutive frame in a session that meets its invariant neither faults nor stops (R44, R52). -/
theorem acceptConsecutive_next (r : Receiving) (d : List Byte) (s : State) (hi : r.Inv) (hd : d.length = 7) :
    ∃ buf, memWrite r.buf (appendAddr r) (d.take (appendCount r)) = some buf ∧
      buf.map Prod.fst = List.range (r.bufLen.toNat + appendCount r) ∧
      (r.bufLen.toNat + appendCount r = r.expectedLength.toNat → ∃ p, p.length = r.expectedLength.toNat ∧
        memRead buf r.expectedLength.toNat 0 r.expectedLength.toNat = some p ∧
        acceptConsecutive r d s = .next { emit (.deliver r.peerId r.peerExt p) s with session := completedSession r buf r.expectedLength.toNat }) ∧
      (r.bufLen.toNat + appendCount r ≠ r.expectedLength.toNat →
        acceptConsecutive r d s = .next { quiet s with session := continuedSession r buf (r.bufLen.toNat + appendCount r) s }) := by
  have hlt := newLen_lt r
  have hn : appendCount r ≤ 7 := by simp only [appendCount, Config.cfData]; omega
  have htake : (d.take (appendCount r)).length = appendCount r := by simp; omega
  have hw : memWrite r.buf (appendAddr r) (d.take (appendCount r)) = some (Memory.writeBytes r.buf r.bufLen.toNat (d.take (appendCount r))) := by
    simp only [memWrite, htake, appendAddr, Config.bufBytes]; rw [if_pos (by omega)]
  have haddr := addresses_writeBytes r.buf r.bufLen.toNat (d.take (appendCount r)) hi.buffer
  rw [htake] at haddr
  refine ⟨_, hw, haddr, fun h => ?_, fun h => ?_⟩
  · obtain ⟨p, hp⟩ := readBytes_total (Memory.writeBytes r.buf r.bufLen.toNat (d.take (appendCount r))) 0 r.expectedLength.toNat (fun j hj => by
      apply read_of_mem_addr; rw [haddr]; exact List.mem_range.2 (by omega))
    refine ⟨p, ((readBytes_spec _ _ _ _).1 hp).1, by simp [memRead, hp], ?_⟩
    simp only [acceptConsecutive, hw]; rw [if_pos h]
    simp only [memRead, h, Nat.zero_add, Nat.le_refl, if_true, hp]
  · simp only [acceptConsecutive, hw]; rw [if_neg h]

/-- The rows a frame can decode to. -/
theorem rowOf_cases (f : CanFrame) : (f.rtr = true ∧ ∃ src d, decodeRx f = .rxRtr src d) ∨ (f.rtr = false ∧
    ((f.data = [] ∧ decodeRx f = .rxEmpty f.sender) ∨ ∃ b rest, f.data = b :: rest ∧ decodeRx f = decodePci f.sender b rest)) := by
  obtain ⟨id, ext, rtr, data⟩ := f
  cases rtr
  · refine .inr ⟨rfl, ?_⟩
    cases data with
    | nil => exact .inl ⟨rfl, rfl⟩
    | cons b rest => exact .inr ⟨b, rest, rfl, rfl⟩
  · exact .inl ⟨rfl, _, _, rfl⟩

/-- A frame that classifies as First has the First row. -/
theorem classify_first_row (f : CanFrame) (hr : f.rtr = false) (t d) (h : classify f.data = .ok (.first t d)) :
    ∃ src high rest, decodeRx f = .rxFf src high rest := by
  rcases rowOf_cases f with ⟨h', -⟩ | ⟨-, ⟨hd, -⟩ | ⟨b, rest, hd, he⟩⟩
  · simp [hr] at h'
  · simp [hd, classify] at h
  · rw [he]; rw [hd] at h
    rcases decodePci_cases b with ⟨x, rfl⟩ | ⟨x, rfl⟩ | ⟨x, rfl⟩ | ⟨x, rfl⟩ | ⟨x, rfl⟩ | ⟨x, rfl⟩ | ⟨x, rfl⟩
    · rw [classify_pciSf] at h; unfold classifySf at h; split at h <;> try split at h
      all_goals cases h
    · rw [classify_pciSfLenRsvd] at h; cases h
    · exact ⟨_, _, _, decodePci_pciFf _ _ _⟩
    · rw [classify_pciCf] at h; unfold classifyCf at h; split at h <;> cases h
    · rw [classify_pciFc] at h; unfold classifyFc at h; split at h <;> cases h
    · rw [classify_pciRsvd47] at h; cases h
    · rw [classify_pciRsvd8F] at h; cases h

/-- A frame that classifies as Consecutive has the Consecutive row. -/
theorem classify_consecutive_row (f : CanFrame) (hr : f.rtr = false) (t d) (h : classify f.data = .ok (.consecutive t d)) :
    ∃ src sn rest, decodeRx f = .rxCf src sn rest := by
  rcases rowOf_cases f with ⟨h', -⟩ | ⟨-, ⟨hd, -⟩ | ⟨b, rest, hd, he⟩⟩
  · simp [hr] at h'
  · simp [hd, classify] at h
  · rw [he]; rw [hd] at h
    rcases decodePci_cases b with ⟨x, rfl⟩ | ⟨x, rfl⟩ | ⟨x, rfl⟩ | ⟨x, rfl⟩ | ⟨x, rfl⟩ | ⟨x, rfl⟩ | ⟨x, rfl⟩
    · rw [classify_pciSf] at h; unfold classifySf at h; split at h <;> try split at h
      all_goals cases h
    · rw [classify_pciSfLenRsvd] at h; cases h
    · rw [classify_pciFf] at h; unfold classifyFf at h; split at h <;> try split at h
      all_goals cases h
    · exact ⟨_, _, _, decodePci_pciCf _ _ _⟩
    · rw [classify_pciFc] at h; unfold classifyFc at h; split at h <;> cases h
    · rw [classify_pciRsvd47] at h; cases h
    · rw [classify_pciRsvd8F] at h; cases h

/-- A generated flow-control frame may be transmitted (R66, R98). -/
theorem ctsFrame_ok (cfg : Cfg) (src : Sender) : Machine.CanFrame.transmittable (ctsFrame cfg src) := by
  have := fcId_fits cfg src
  simp [Machine.CanFrame.transmittable, CanFrame.wf, ctsFrame, this, encodeFcData, Config.fcLen, Config.frameBytes]

/-- An encoded request may be transmitted (R67). -/
theorem request_ok (cfg : Cfg) (h : cfg.wf = true) (m p e f) (hf : encodeRequest cfg m p e = .ok f) : Machine.CanFrame.transmittable f := by
  unfold encodeRequest at hf; split at hf <;> cases hf
  rename_i hl
  have : idFits cfg.reqId cfg.reqExt = true := h
  simp only [Config.frameBytes] at hl
  simp only [Machine.CanFrame.transmittable, CanFrame.wf, this, requestData, Config.frameBytes, List.length_append, List.length_replicate, Bool.true_and, decide_eq_true_eq, true_and]
  omega

/-- A state reached by one update keeps the invariant when each changed part keeps its own. -/
theorem session_step_inv (s t : State) (hi : s.Inv) (hs : t.session.Inv) (ho : t.out.Inv) (hc : t.cfg = s.cfg)
  (hr : ∀ f ∈ t.rxQueue, f ∈ s.rxQueue ∨ f.wf = true) (ht : ∀ f ∈ t.txQueue, f ∈ s.txQueue ∨ Machine.CanFrame.transmittable f) : t.Inv :=
  ⟨hs, ho, hc ▸ hi.cfg, fun f hf => (hr f hf).elim (hi.held f) id, fun f hf => (ht f hf).elim (hi.taken f) id⟩

end Sys2Proof.Laws
end

