-- ==== Sys2Proof/Laws/HostBoundary.lean ====
section
/-! SUPPORT. What the host's book can do, said once (R160 to R167), and how a step can leave the block in a terminal state. -/

open Sys2Proof.Machine

namespace Sys2Proof.Laws

/-- Every RX row that may occur passes the filter, finds the block ready and no `CLEAR` owed (R161, R162, R167). -/
theorem mayOccur_frame (b : HostBook) (s : State) (m : HostMove) (f : CanFrame) (hf : m.event.frame = some f)
    (h : b.mayOccur s m = true) : passesFilter f = true ∧ s.session.rxReady = true ∧ b.owed = .nothing := by
  obtain ⟨i, w⟩ := m
  cases i <;> simp only [Instr.frame, Option.some.injEq, reduceCtorEq] at hf <;> subst hf <;>
    simp only [HostBook.mayOccur, HostBook.mayPresent, Instr.frame, Bool.and_eq_true, decide_eq_true_eq] at h <;>
    exact ⟨h.2.1.1, h.2.1.2, h.2.2⟩

/-- An `ENCODE_REQ` that may occur finds no `CLEAR` owed, and either the same request in flight or none and the block in `Idle` (R160, R141; log 21, log 25). -/
theorem mayOccur_encodeReq (b : HostBook) (s : State) (w : Option GivenUp) (m : Byte) (p : Option Byte) (e : List Byte)
    (h : b.mayOccur s { event := .encodeReq m p e, givenUp := w } = true) :
    b.owed = .nothing ∧ (b.request = none ∧ s.session = .idle ∨ b.request = some { mode := m, pid := p, extra := e }) := by
  simp only [HostBook.mayOccur, HostBook.mayRequest, Bool.and_eq_true, decide_eq_true_eq] at h
  obtain ⟨-, ho, hr⟩ := h
  refine ⟨ho, ?_⟩
  cases hb : b.request with
  | none => rw [hb] at hr; exact .inl ⟨rfl, by simpa using hr⟩
  | some q => rw [hb] at hr; exact .inr (by simpa using hr)

/-- Hearing an output never pays a `CLEAR` that is owed: only `CLEAR` does. -/
theorem hear_owed (b : HostBook) (t : State) (h : (b.hear t).owed = .nothing) :
    b.owed = .nothing ∧ (∀ c, t.out ≠ .error c) ∧ ∀ i e p, t.out = .deliver i e p → t.session.done = false := by
  unfold HostBook.hear at h
  split at h
  · rename_i ho; simp [h, ho]
  · rename_i ho; simp [h, ho]
  · cases h
  · rename_i ho
    split at h
    · cases h
    · split at h
      · cases h
      · rename_i hd; refine ⟨h, by simp [ho], fun _ _ _ _ => by simpa using hd⟩

/-- How a step can end in a terminal state: with an `ERROR`, with a `DELIVER` from `Complete`, or where it stood in one already. -/
theorem terminal_cases (i : Instr) (s t : State) (h : exec i s = .next t) (ht : t.session.rxReady = false) :
    (∃ c, t.out = .error c) ∨ (∃ j e p, t.out = .deliver j e p ∧ t.session.done = true) ∨
      (s.session.rxReady = false ∧ t.session = s.session) := by
  obtain ⟨f, -, hr, rfl⟩ | ⟨f, -, hr, hx⟩ | ⟨m, p, e, -, ⟨c, rfl⟩ | ⟨f, -, rfl⟩⟩ | ⟨c, -, rfl⟩ | ⟨-, -, rfl⟩ | ⟨-, rfl⟩ | ⟨-, rfl⟩ :=
    exec_cases i s t h
  · exact .inr (.inr ⟨hr, rfl⟩)
  · obtain ⟨-, rfl⟩ | ⟨-, hc⟩ := receiveFrame_cases f s t hx
    · exact .inr (.inr ⟨ht, rfl⟩)
    · obtain ⟨e, -, rfl⟩ | ⟨l, d, -, rfl⟩ | ⟨total, d, buf, -, -, -, rfl⟩ | ⟨sn, d, r, -, hs, -, ha⟩ | ⟨rfl, -⟩ :=
        receiveClassified_cases f.sender _ s t hr hc
      · exact .inl ⟨e, rfl⟩
      · exact .inr (.inr ⟨ht, rfl⟩)
      · cases ht
      · obtain ⟨buf, -, ⟨-, p, -, rfl⟩ | ⟨-, rfl⟩⟩ := acceptConsecutive_cases r d s t ha
        · exact .inr (.inl ⟨_, _, _, rfl, rfl⟩)
        · cases ht
      · exact .inr (.inr ⟨ht, rfl⟩)
  · exact .inl ⟨c, rfl⟩
  · exact .inr (.inr ⟨ht, rfl⟩)
  · exact .inr (.inr ⟨ht, rfl⟩)
  · exact .inl ⟨_, rfl⟩
  · exact .inr (.inr ⟨ht, rfl⟩)
  · cases ht

end Sys2Proof.Laws
end

