-- ==== Sys2Proof/Laws/PerInstr.lean ====
section
/-! SUPPORT. The family WfFrame: the frame of a well-formed instruction is a `CanFrame` (R60), one lemma for each constructor of Instr. -/

namespace Sys2Proof.Laws

/-- A data frame with fewer than 8 bytes after the PCI byte is a `CanFrame` when its sender is one (R60). -/
theorem wf_dataFrame (src : Sender) (b : Byte) (rest : List Byte)
    (h : (src.wf && decide (rest.length < Config.frameBytes)) = true) : (dataFrame src (b :: rest)).wf = true := by
  simp only [Bool.and_eq_true, decide_eq_true_eq] at h
  have hs : idFits src.id src.extended = true := h.1
  simp only [CanFrame.wf, dataFrame, hs, List.length_cons, Bool.true_and]
  exact decide_eq_true h.2

/-- The frame of the instruction, if it has one, is a `CanFrame` when the instruction is well formed. -/
def WfFrame.Statement (i : Instr) : Prop := i.wf = true → ∀ f, i.frame = some f → f.wf = true

theorem WfFrame.rxSf (src : Sender) (x : BitVec 3) (rest : List Byte) : WfFrame.Statement (.rxSf src x rest) := by
  rintro h f ⟨⟩; exact wf_dataFrame _ _ _ h
theorem WfFrame.rxSfLenRsvd (src : Sender) (x : BitVec 3) (rest : List Byte) : WfFrame.Statement (.rxSfLenRsvd src x rest) := by
  rintro h f ⟨⟩; exact wf_dataFrame _ _ _ h
theorem WfFrame.rxFf (src : Sender) (x : Nibble) (rest : List Byte) : WfFrame.Statement (.rxFf src x rest) := by
  rintro h f ⟨⟩; exact wf_dataFrame _ _ _ h
theorem WfFrame.rxCf (src : Sender) (x : Nibble) (rest : List Byte) : WfFrame.Statement (.rxCf src x rest) := by
  rintro h f ⟨⟩; exact wf_dataFrame _ _ _ h
theorem WfFrame.rxFc (src : Sender) (x : Nibble) (rest : List Byte) : WfFrame.Statement (.rxFc src x rest) := by
  rintro h f ⟨⟩; exact wf_dataFrame _ _ _ h
theorem WfFrame.rxPciRsvd47 (src : Sender) (x : BitVec 6) (rest : List Byte) : WfFrame.Statement (.rxPciRsvd47 src x rest) := by
  rintro h f ⟨⟩; exact wf_dataFrame _ _ _ h
theorem WfFrame.rxPciRsvd8F (src : Sender) (x : BitVec 7) (rest : List Byte) : WfFrame.Statement (.rxPciRsvd8F src x rest) := by
  rintro h f ⟨⟩; exact wf_dataFrame _ _ _ h
theorem WfFrame.rxEmpty (src : Sender) : WfFrame.Statement (.rxEmpty src) := by
  rintro h f ⟨⟩
  have hs : idFits src.id src.extended = true := h
  simp [CanFrame.wf, dataFrame, hs]
theorem WfFrame.rxRtr (src : Sender) (data : List Byte) : WfFrame.Statement (.rxRtr src data) := by
  rintro h f ⟨⟩; exact h
theorem WfFrame.rxHold (g : CanFrame) : WfFrame.Statement (.rxHold g) := by
  rintro h f ⟨⟩; exact h
theorem WfFrame.rx (g : CanFrame) : WfFrame.Statement (.rx g) := by
  rintro h f ⟨⟩; exact h
theorem WfFrame.encodeReq (m : Byte) (p : Option Byte) (e : List Byte) : WfFrame.Statement (.encodeReq m p e) := by
  rintro - f ⟨⟩
theorem WfFrame.expire : WfFrame.Statement .expire := by
  rintro - f ⟨⟩
theorem WfFrame.clear : WfFrame.Statement .clear := by
  rintro - f ⟨⟩
theorem WfFrame.reset : WfFrame.Statement .reset := by
  rintro - f ⟨⟩
theorem WfFrame.evtRsvd5 : WfFrame.Statement .evtRsvd5 := by
  rintro - f ⟨⟩
theorem WfFrame.evtRsvd6 : WfFrame.Statement .evtRsvd6 := by
  rintro - f ⟨⟩
theorem WfFrame.evtRsvd7 : WfFrame.Statement .evtRsvd7 := by
  rintro - f ⟨⟩
theorem WfFrame.classify (d : List Byte) : WfFrame.Statement (.classify d) := by
  rintro - f ⟨⟩
theorem WfFrame.encodeFc (st : Nibble) (bs sep : Byte) : WfFrame.Statement (.encodeFc st bs sep) := by
  rintro - f ⟨⟩
theorem WfFrame.fcCts (src : Sender) : WfFrame.Statement (.fcCts src) := by
  rintro - f ⟨⟩
theorem WfFrame.req (m : Byte) (p : Option Byte) (e : List Byte) : WfFrame.Statement (.req m p e) := by
  rintro - f ⟨⟩

end Sys2Proof.Laws
end

