-- ==== Sys2Proof/Tests/Slice0.lean ====
section
/-! SUPPORT. The model's own tests: refused ill-formed terms, words written out from the spec's encodings, single steps from the vectors of 95_test_vectors.md (named E, K, F, V, T there), and for each statement of Obligations.lean a state and operands that meet its hypotheses. -/

open Sys2Proof
open Sys2Proof.Machine

namespace Sys2Proof.Tests

/-! ### Helpers -/

/-- The sender 7E8. -/
def ecu : Sender := standard 0x7E8#29

/-- `A{e, b, n, p}` of 95_test_vectors.md: a session with these bytes buffered, in a state whose free deadline is any. -/
def awaiting (e : Count) (buffered : List Byte) (n : Nibble) (p : Identifier) : State :=
  { State.reset with
    session := .awaitingConsecutive
      { expectedLength := e, buf := Memory.writeBytes [] 0 buffered, bufLen := BitVec.ofNat 12 buffered.length,
        nextSequence := n, peerId := p, peerExt := false, deadline := BitVec.ofNat Config.timeBits 0 } }

/-- A completed session that holds these bytes. -/
def completed (held : List Byte) : State :=
  { State.reset with
    session := .complete
      { expectedLength := BitVec.ofNat 12 held.length, buf := Memory.writeBytes [] 0 held,
        bufLen := BitVec.ofNat 12 held.length, peerId := 0x7E8#29, peerExt := false } }

/-- `Aborted` with a cause. -/
def aborted (c : Cause) : State := { State.reset with session := .aborted c }

/-- 13 bytes, the ones programs P1 and P2 have buffered after one Consecutive frame. -/
def thirteen : List Byte :=
  [0x49#8, 0x02#8, 0x01#8, 0x31#8, 0x47#8, 0x31#8, 0x4A#8, 0x43#8, 0x35#8, 0x34#8, 0x34#8, 0x34#8, 0x52#8]

/-- `A{20, 13, 2, 7E8}`. -/
def mid : State := awaiting 20#12 thirteen 2#4 0x7E8#29

/-- The numbers of a session as the vectors print them. -/
def numbers : Session → List Nat
  | .idle                  => [0]
  | .awaitingConsecutive r => [1, r.expectedLength.toNat, r.bufLen.toNat, r.nextSequence.toNat, r.peerId.toNat]
  | .complete c            => [2, c.expectedLength.toNat, c.peerId.toNat]
  | .aborted err           => [3, err.code.toNat]

/-- What one step shows: its trace line and the session after it. -/
def shows (a : Answer) : Option (List String × List Nat) :=
  match a with
  | .next t    => some (outputLine t, numbers t.session)
  | .fault _   => none
  | .refused _ => none

/-- What the codec unit shows after one step. -/
def codecShows (a : Answer) : Option CodecOut :=
  match a with
  | .next t    => some t.codec
  | .fault _   => none
  | .refused _ => none

/-- What the decoder gives. -/
def decodes (img : List Byte) : Option Instr :=
  match decode img with
  | .ok i    => some i
  | .error _ => none

/-- Why the decoder refuses. -/
def rejects (img : List Byte) : Option Reject :=
  match decode img with
  | .ok _    => none
  | .error r => some r

/-- `n` bytes of no importance. -/
def bytes (n : Nat) : List Byte := List.replicate n 0x55#8

/-! ### Ill-formed terms are refused (R60, R91) -/

theorem test_wf_id : (Instr.rxEmpty ⟨0x800#29, false⟩).wf = false ∧ (Instr.rxEmpty ⟨0x7FF#29, false⟩).wf = true ∧
    (Instr.rxEmpty ⟨0x800#29, true⟩).wf = true := by decide
theorem test_wf_sf : (Instr.rxSf ecu 0#3 (bytes 8)).wf = false ∧ (Instr.rxSf ⟨0x800#29, false⟩ 0#3 []).wf = false ∧
    (Instr.rxSf ecu 0#3 (bytes 7)).wf = true := by decide
theorem test_wf_sfLenRsvd : (Instr.rxSfLenRsvd ecu 0#3 (bytes 8)).wf = false ∧ (Instr.rxSfLenRsvd ⟨0x800#29, false⟩ 0#3 []).wf = false := by decide
theorem test_wf_ff : (Instr.rxFf ecu 0#4 (bytes 8)).wf = false ∧ (Instr.rxFf ⟨0x800#29, false⟩ 0#4 []).wf = false := by decide
theorem test_wf_cf : (Instr.rxCf ecu 0#4 (bytes 8)).wf = false ∧ (Instr.rxCf ⟨0x800#29, false⟩ 0#4 []).wf = false := by decide
theorem test_wf_fc : (Instr.rxFc ecu 0#4 (bytes 8)).wf = false ∧ (Instr.rxFc ⟨0x800#29, false⟩ 0#4 []).wf = false := by decide
theorem test_wf_rsvd47 : (Instr.rxPciRsvd47 ecu 0#6 (bytes 8)).wf = false ∧ (Instr.rxPciRsvd47 ⟨0x800#29, false⟩ 0#6 []).wf = false := by decide
theorem test_wf_rsvd8F : (Instr.rxPciRsvd8F ecu 0#7 (bytes 8)).wf = false ∧ (Instr.rxPciRsvd8F ⟨0x800#29, false⟩ 0#7 []).wf = false := by decide
theorem test_wf_rtr : (Instr.rxRtr ecu (bytes 9)).wf = false ∧ (Instr.rxRtr ⟨0x800#29, false⟩ []).wf = false ∧
    (Instr.rxRtr ecu (bytes 8)).wf = true := by decide
theorem test_wf_rx : (Instr.rx (dataFrame ecu (bytes 9))).wf = false ∧ (Instr.rxHold (dataFrame ecu (bytes 9))).wf = false ∧
    (Instr.rx (dataFrame ⟨0x800#29, false⟩ [])).wf = false ∧ (Instr.rxHold (dataFrame ⟨0x800#29, false⟩ [])).wf = false := by decide
theorem test_wf_classify : (Instr.classify (bytes 9)).wf = false ∧ (Instr.classify (bytes 8)).wf = true := by decide
theorem test_wf_fcCts : (Instr.fcCts ⟨0x800#29, false⟩).wf = false := by decide
theorem test_wf_cfg : Cfg.wf { Cfg.default with reqId := 0x800#29 } = false ∧ Cfg.default.wf = true := by decide

/-! ### Words written out from the encodings (R61 to R72; the layout after the tag is log 1, log 2) -/

theorem test_decode_rxSf : decodes [0x00#8, 0x08#8, 0x00#8, 0x00#8, 0x07#8, 0xE8#8, 0x03#8, 0x41#8, 0x0D#8, 0x32#8, 0xCC#8, 0xCC#8, 0xCC#8, 0xCC#8]
    = some (.rxSf ecu 3#3 [0x41#8, 0x0D#8, 0x32#8, 0xCC#8, 0xCC#8, 0xCC#8, 0xCC#8]) := by decide
theorem test_decode_rxSfLenRsvd : decodes [0x00#8, 0x01#8, 0x00#8, 0x00#8, 0x07#8, 0xE8#8, 0x0F#8]
    = some (.rxSfLenRsvd ecu 7#3 []) := by decide
theorem test_decode_rxFf : decodes [0x00#8, 0x08#8, 0x00#8, 0x00#8, 0x07#8, 0xE8#8, 0x1A#8, 0xBC#8, 0x00#8, 0x01#8, 0x02#8, 0x03#8, 0x04#8, 0x05#8]
    = some (.rxFf ecu 0xA#4 [0xBC#8, 0x00#8, 0x01#8, 0x02#8, 0x03#8, 0x04#8, 0x05#8]) := by decide
theorem test_decode_rxCf : decodes [0x00#8, 0x02#8, 0x00#8, 0x00#8, 0x07#8, 0xE8#8, 0x2F#8, 0x68#8]
    = some (.rxCf ecu 0xF#4 [0x68#8]) := by decide
theorem test_decode_rxFc : decodes [0x00#8, 0x03#8, 0x00#8, 0x00#8, 0x07#8, 0xE8#8, 0x31#8, 0x08#8, 0x14#8]
    = some (.rxFc ecu 1#4 [0x08#8, 0x14#8]) := by decide
theorem test_decode_rxPciRsvd47 : decodes [0x00#8, 0x01#8, 0x00#8, 0x00#8, 0x07#8, 0xE8#8, 0x7E#8]
    = some (.rxPciRsvd47 ecu 0x3E#6 []) := by decide
theorem test_decode_rxPciRsvd8F : decodes [0x00#8, 0x11#8, 0x18#8, 0xDA#8, 0xF1#8, 0x10#8, 0xCC#8]
    = some (.rxPciRsvd8F ⟨0x18DAF110#29, true⟩ 0x4C#7 []) := by decide
theorem test_decode_rxEmpty : decodes [0x00#8, 0x00#8, 0x00#8, 0x00#8, 0x07#8, 0xE8#8] = some (.rxEmpty ecu) := by decide
theorem test_decode_rxRtr : decodes [0x00#8, 0x22#8, 0x00#8, 0x00#8, 0x07#8, 0xE8#8, 0x40#8, 0x00#8]
    = some (.rxRtr ecu [0x40#8, 0x00#8]) := by decide
theorem test_decode_rx : decodes [0x08#8, 0x01#8, 0x00#8, 0x00#8, 0x07#8, 0xE8#8, 0x00#8] = some (.rx (dataFrame ecu [0x00#8])) := by decide
theorem test_decode_rxHold : decodes [0x09#8, 0x01#8, 0x00#8, 0x00#8, 0x07#8, 0xE8#8, 0x00#8] = some (.rxHold (dataFrame ecu [0x00#8])) := by decide
theorem test_decode_encodeReq : decodes [0x01#8, 0x22#8, 0x01#8, 0xF1#8, 0x90#8] = some (.encodeReq 0x22#8 (some 0xF1#8) [0x90#8]) ∧
    decodes [0x01#8, 0x3E#8, 0x00#8, 0x01#8] = some (.encodeReq 0x3E#8 none [0x01#8]) := by decide
theorem test_decode_control : decodes [0x02#8] = some .expire ∧ decodes [0x03#8] = some .clear ∧ decodes [0x04#8] = some .reset ∧
    decodes [0x05#8] = some .evtRsvd5 ∧ decodes [0x06#8] = some .evtRsvd6 ∧ decodes [0x07#8] = some .evtRsvd7 := by decide
theorem test_decode_classify : decodes [0x0A#8, 0x30#8, 0x00#8, 0x00#8] = some (.classify [0x30#8, 0x00#8, 0x00#8]) := by decide
theorem test_decode_encodeFc : decodes [0x0B#8, 0x01#8, 0x08#8, 0x14#8] = some (.encodeFc 1#4 0x08#8 0x14#8) := by decide
theorem test_decode_fcCts : decodes [0x0C#8, 0x00#8, 0x00#8, 0x00#8, 0x07#8, 0xE8#8] = some (.fcCts ecu) := by decide
theorem test_decode_req : decodes [0x0D#8, 0x09#8, 0x01#8, 0x02#8] = some (.req 0x09#8 (some 0x02#8) []) := by decide

/-- Every reason the decoder has to refuse is met. -/
theorem test_decode_rejects :
    rejects [] = some .emptyImage ∧ rejects [0x0E#8] = some .unassignedTag ∧ rejects [0x00#8, 0x08#8] = some .truncated ∧
    rejects [0x02#8, 0x00#8] = some .wrongLength ∧ rejects [0x00#8, 0x09#8, 0#8, 0#8, 0#8, 0#8] = some .lengthCodeAboveEight ∧
    rejects [0x00#8, 0x40#8, 0#8, 0#8, 0#8, 0#8] = some .reservedHeaderBits ∧
    rejects [0x00#8, 0x00#8, 0#8, 0#8, 0x08#8, 0#8] = some .identifierTooWide ∧
    rejects [0x01#8, 0x01#8, 0x02#8] = some .badPidFlag ∧ rejects [0x0B#8, 0x10#8, 0#8, 0#8] = some .statusTooWide := by decide

/-- The decoding of the opcode table's own words (log 3). -/
theorem test_table_words :
    decodeTableWord 8 0x08 = some (.rxSfLenRsvd ⟨0#29, false⟩ 0#3 (List.replicate 7 0#8)) ∧
    decodeTableWord 8 0x10 = some (.rxFf ⟨0#29, false⟩ 0#4 (List.replicate 7 0#8)) ∧
    decodeTableWord 8 0x40 = some (.rxPciRsvd47 ⟨0#29, false⟩ 0#6 (List.replicate 7 0#8)) ∧
    decodeTableWord 8 0x01 = some (.encodeReq 0#8 none []) ∧ decodeTableWord 8 0x07 = some .evtRsvd7 ∧
    decodeTableWord 64 0x300000CCCCCCCCCC = some (.fcCts ⟨0#29, false⟩) := by decide

/-- The pseudo-forms of R79 and a trace line of R78, as program P1 prints them. -/
theorem test_trace :
    decodeRx (ffForm 0x7E8#29 20#12 [0x49#8, 0x02#8, 0x01#8, 0x31#8, 0x47#8, 0x31#8])
      = .rxFf ecu 0#4 [0x14#8, 0x49#8, 0x02#8, 0x01#8, 0x31#8, 0x47#8, 0x31#8] ∧
    decodeRx (sfForm 0x7E8#29 [0x41#8, 0x0D#8, 0x32#8] (some 0xCC#8))
      = .rxSf ecu 3#3 [0x41#8, 0x0D#8, 0x32#8, 0xCC#8, 0xCC#8, 0xCC#8, 0xCC#8] ∧
    decodeRx (cfForm 0x7E8#29 1#4 (bytes 7)) = .rxCf ecu 1#4 (bytes 7) ∧
    decodeRx (fcForm 0x7E8#29 0#4 0#8 0#8 none) = .rxFc ecu 0#4 [0#8, 0#8] ∧
    eventLine (.encodeReq 0x09#8 (some 0x02#8) []) = some ["enc", "09", "02"] ∧
    eventLine (.rxRtr ecu [0x40#8, 0x00#8]) = some ["rx", "7E8", "r", ":", "40", "00"] := by decide

/-! ### Single steps, from 95_test_vectors.md -/

theorem test_E5 : shows (exec (.encodeReq 0x02#8 (some 0x0C#8) [0x00#8]) mid)
    = some (["->", "tx", "7DF", ":", "02", "0C", "00", "CC", "CC", "CC", "CC", "CC"], [1, 20, 13, 2, 0x7E8]) := by decide
theorem test_E7 : shows (exec (.encodeReq 0x22#8 (some 0xF1#8) [0x90#8, 1#8, 2#8, 3#8, 4#8, 5#8, 6#8]) (aborted .sequenceMismatch))
    = some (["->", "error", "EncodeError"], [3, 3]) := by decide
theorem test_E8_as_function : codecShows (exec (.req 0x3E#8 none [0x00#8, 1#8, 2#8, 3#8, 4#8, 5#8, 6#8]) State.reset)
    = some (.frame ⟨0x7DF#29, false, false, [0x3E#8, 0x00#8, 1#8, 2#8, 3#8, 4#8, 5#8, 6#8]⟩) := by decide
theorem test_E9_as_function : codecShows (exec (.req 0x3E#8 none [0x00#8, 1#8, 2#8, 3#8, 4#8, 5#8, 6#8, 7#8]) State.reset)
    = some (.failed .encodeError) := by decide

theorem test_K8 : codecShows (exec (.classify [0x0F#8]) mid) = some (.failed .singleLengthInvalid) := by decide
theorem test_K12 : codecShows (exec (.classify [0x11#8, 0#8, 0#8, 0#8, 0#8, 0#8, 0#8, 0#8]) State.reset)
    = some (.variant (.first 256#12 [0#8, 0#8, 0#8, 0#8, 0#8, 0#8])) := by decide
theorem test_F2 : codecShows (exec (.encodeFc 1#4 8#8 20#8) mid)
    = some (.bytes [0x31#8, 0x08#8, 0x14#8, 0xCC#8, 0xCC#8, 0xCC#8, 0xCC#8, 0xCC#8]) := by decide
theorem test_F1_for_7EF : codecShows (exec (.fcCts (standard 0x7EF#29)) State.reset)
    = some (.frame ⟨0x7E7#29, false, false, [0x30#8, 0x00#8, 0x00#8, 0xCC#8, 0xCC#8, 0xCC#8, 0xCC#8, 0xCC#8]⟩) := by decide

theorem test_V2 : shows (exec (.rxSf ecu 0#3 []) State.reset) = some (["->", "deliver", "7E8", ":"], [0]) := by decide
theorem test_V3 : shows (exec (.rxSf (standard 0x7EA#29) 3#3 [0x41#8, 0x0D#8, 0x32#8, 0xCC#8, 0xCC#8, 0xCC#8, 0xCC#8]) mid)
    = some (["->", "deliver", "7EA", ":", "41", "0D", "32"], [1, 20, 13, 2, 0x7E8]) := by decide
theorem test_V9 : shows (exec (.rxFf ecu 0#4 [0x05#8, 0x41#8, 0x42#8, 0x43#8, 0x44#8, 0x45#8, 0x46#8]) State.reset)
    = some (["->", "error", "Overflow"], [3, 6]) := by decide
theorem test_V12 : shows (exec (.rxFf (standard 0x7E9#29) 0#4 [0x0F#8, 0xB0#8, 0xB1#8, 0xB2#8, 0xB3#8, 0xB4#8, 0xB5#8]) mid)
    = some (["->", "tx", "7E1", ":", "30", "00", "00", "CC", "CC", "CC", "CC", "CC"], [1, 15, 6, 1, 0x7E9]) := by decide
theorem test_wrap_like_V18 : shows (exec (.rxCf ecu 0xF#4 (bytes 7)) (awaiting 118#12 thirteen 0xF#4 0x7E8#29))
    = some (["->", "-"], [1, 118, 20, 0, 0x7E8]) := by decide
theorem test_V20 : shows (exec (.rxCf (standard 0x7E9#29) 1#4 [0x02#8, 0x34#8, 0x00#8, 0x00#8, 0xAA#8, 0xAA#8, 0xAA#8])
      (awaiting 10#12 [0x43#8, 0x02#8, 0x01#8, 0x43#8, 0x01#8, 0x96#8] 1#4 0x7E9#29))
    = some (["->", "deliver", "7E9", ":", "43", "02", "01", "43", "01", "96", "02", "34", "00", "00"], [2, 10, 0x7E9]) := by decide
theorem test_V25 : shows (exec (.rxFc ecu 1#4 [0x08#8, 0x14#8, 0#8, 0#8, 0#8, 0#8, 0#8]) mid)
    = some (["->", "-"], [1, 20, 13, 2, 0x7E8]) := by decide
theorem test_K22_in_a_session : shows (exec (.rxFc ecu 0#4 [0x00#8]) mid) = some (["->", "error", "FrameTooShort"], [3, 7]) := by decide
theorem test_V26 : shows (exec (.rxPciRsvd47 ecu 0#6 (List.replicate 7 0#8)) State.reset)
    = some (["->", "error", "InvalidPciType"], [3, 4]) := by decide
theorem test_K25_in_a_session : shows (exec (.rxPciRsvd8F ecu 0x4C#7 (List.replicate 7 0xCC#8)) mid)
    = some (["->", "error", "InvalidPciType"], [3, 4]) := by decide
theorem test_V27 : shows (exec (.rxSfLenRsvd ecu 0#3 (List.replicate 7 0#8)) mid)
    = some (["->", "error", "SingleLengthInvalid"], [3, 5]) := by decide
theorem test_V30 : shows (exec (.rxEmpty ecu) State.reset) = some (["->", "error", "FrameTooShort"], [3, 7]) := by decide
theorem test_V32 : shows (exec (.rxRtr ecu [0x40#8, 0x00#8]) mid) = some (["->", "-"], [1, 20, 13, 2, 0x7E8]) := by decide
theorem test_V29 : shows (exec (.rx (dataFrame ecu [0x23#8, 0x37#8])) mid) = some (["->", "error", "FrameTooShort"], [3, 7]) := by decide
theorem test_V16 : shows (exec (.rx (cfForm 0x7E8#29 1#4 [0x4A#8, 0x43#8, 0x35#8, 0x34#8, 0x34#8, 0x34#8, 0x52#8])) mid)
    = some (["->", "error", "SequenceMismatch"], [3, 3]) := by decide
theorem test_V33 : shows (exec (.rxHold (sfForm 0x7E8#29 [0x41#8, 0x0D#8, 0x32#8] (some 0xCC#8))) (completed thirteen))
    = some (["!!", "not accepted"], [2, 13, 0x7E8]) := by decide
theorem test_T1 : shows (exec .expire mid) = some (["->", "error", "TimeoutError"], [3, 2]) := by decide
theorem test_T2 : shows (exec .expire (completed thirteen)) = some (["!!", "not accepted"], [2, 13, 0x7E8]) := by decide
theorem test_T3 : shows (exec .clear mid) = some (["->", "-"], [0]) := by decide
theorem test_T5 : shows (exec .clear (aborted .sequenceMismatch)) = some (["->", "-"], [0]) := by decide
theorem test_T7 : shows (exec .reset (completed thirteen)) = some (["->", "-"], [0]) := by decide
theorem test_reserved_tags : shows (exec .evtRsvd5 mid) = some (["!!", "not accepted"], [1, 20, 13, 2, 0x7E8]) ∧
    shows (exec .evtRsvd6 mid) = some (["!!", "not accepted"], [1, 20, 13, 2, 0x7E8]) ∧
    shows (exec .evtRsvd7 mid) = some (["!!", "not accepted"], [1, 20, 13, 2, 0x7E8]) := by decide

/-! ### The step -/

/-- A word placed as the next event runs as the first step after reset. -/
theorem test_first_step : shows (step (State.reset.withFetchWord 8 0x10)) = some (["->", "error", "Overflow"], [3, 6]) ∧
    shows (step (State.reset.withFetchWord 8 0x01)) = some (["->", "tx", "7DF", ":", "00", "CC", "CC", "CC", "CC", "CC", "CC", "CC"], [0]) := by decide

/-- A held frame is presented again once the block is ready (P2, steps 5 and 6). -/
theorem test_held_frame_comes_back : shows (step { State.reset with rxQueue := [cfForm 0x7E8#29 4#4 (bytes 7)] }) = some (["->", "-"], [0]) := by decide

/-! ### Hypotheses that are met -/

theorem test_witness_DecodeOfEncodeIsIdentity : (Instr.rxCf ⟨0x7FF#29, false⟩ 0xF#4 (bytes 7)).wf = true ∧
    (Instr.rx (dataFrame ⟨0x1FFFFFFF#29, true⟩ (bytes 8))).wf = true ∧ (Instr.classify (bytes 8)).wf = true := by decide
theorem test_witness_DecodedImageIsCanonical : decodes [0x04#8] = some .reset ∧ (decodes (0x0A#8 :: bytes 8)).isSome = true := by decide
theorem test_witness_RxDecoderKeepsTheFrame : (dataFrame ecu (bytes 8)).wf = true ∧ (dataFrame ⟨0x1FFFFFFF#29, true⟩ []).wf = true := by decide
theorem test_witness_PciByteSelectsTheRow :
    (hiNibble 0x07#8 = 0#4 ∧ (loNibble 0x07#8).toNat ≤ 7) ∧ (hiNibble 0x08#8 = 0#4 ∧ 7 < (loNibble 0x08#8).toNat) ∧
    hiNibble 0x1F#8 = 1#4 ∧ hiNibble 0x20#8 = 2#4 ∧ hiNibble 0x3F#8 = 3#4 ∧
    (4 ≤ (hiNibble 0x40#8).toNat ∧ (hiNibble 0x7F#8).toNat ≤ 7) ∧ 8 ≤ (hiNibble 0x80#8).toNat := by decide
theorem test_witness_ImagesThatAreNoEventAreRefused :
    (0x09#8 : Byte).extractLsb' 6 2 = 0#2 ∧ 8 < (loNibble 0x09#8).toNat ∧ 14 ≤ (0x0E#8 : Byte).toNat := by decide
theorem test_witness_StepRunsTheDecodedInstruction :
    ∃ (s : State) (img : List Byte) (later : List (List Byte)) (i : Instr), s.inputs = img :: later ∧ decode img = .ok i :=
  ⟨{ State.reset with inputs := [[0x03#8]] }, [0x03#8], [], .clear, rfl, rfl⟩
theorem test_witness_StepWithNothingScripted :
    (∃ (s : State) (f : CanFrame) (later : List CanFrame), s.inputs = [] ∧ s.rxQueue = f :: later ∧ s.session.rxReady = true) ∧
    (∃ s : State, s.inputs = [] ∧ s.rxQueue = []) ∧ (∃ s : State, s.inputs = [] ∧ s.session.rxReady = false) :=
  ⟨⟨{ State.reset with rxQueue := [dataFrame ecu []] }, dataFrame ecu [], [], rfl, rfl, rfl⟩, ⟨State.reset, rfl, rfl⟩,
    ⟨aborted .overflow, rfl, rfl⟩⟩
theorem test_witness_ReservedPciTypesFailClassification : 4 ≤ (hiNibble 0x40#8).toNat ∧ 4 ≤ (hiNibble 0xFF#8).toNat := by decide
theorem test_witness_SingleLengthNibble : hiNibble 0x08#8 = 0#4 ∧ 7 < (loNibble 0x08#8).toNat ∧ hiNibble 0x00#8 = 0#4 ∧
    (loNibble 0x00#8).toNat = 0 := by decide
theorem test_witness_FirstLengthIsBigEndian : hiNibble 0x1F#8 = 1#4 ∧ (bytes 6).length = 6 := by decide
theorem test_witness_FieldsAreTakenAsTheyStand :
    (hiNibble 0x07#8 = 0#4 ∧ (loNibble 0x07#8).toNat ≤ 7 ∧ (loNibble 0x07#8).toNat ≤ (bytes 7).length) ∧
    (hiNibble 0x2F#8 = 2#4 ∧ (bytes 7).length = 7) ∧ (hiNibble 0x3F#8 = 3#4 ∧ bytes 2 = 0x55#8 :: 0x55#8 :: []) := by decide
theorem test_witness_ClassifyCompletes : ([] : List Byte).length ≤ 8 ∧ (0x07#8 :: bytes 7).length ≤ 8 ∧
    (hiNibble 0x0F#8 = 0#4 ∧ 7 < (loNibble 0x0F#8).toNat) ∧ (hiNibble 0x07#8 = 0#4 ∧ (bytes 6).length < (loNibble 0x07#8).toNat) ∧
    (hiNibble 0x07#8 = 0#4 ∧ (loNibble 0x07#8).toNat ≤ (bytes 7).length) ∧ (hiNibble 0x1F#8 = 1#4 ∧ (bytes 6).length < 7) ∧
    (hiNibble 0x1F#8 = 1#4 ∧ (bytes 6).length = 6) ∧ (hiNibble 0x2F#8 = 2#4 ∧ (bytes 6).length < 7) ∧
    (hiNibble 0x2F#8 = 2#4 ∧ (bytes 7).length = 7) ∧ (hiNibble 0x3F#8 = 3#4 ∧ (bytes 1).length < 2) ∧
    (hiNibble 0x3F#8 = 3#4 ∧ bytes 2 = 0x55#8 :: 0x55#8 :: []) ∧ 4 ≤ (hiNibble 0x40#8).toNat := by decide
theorem test_witness_FcCtsCompletes : State.reset.cfg.fcIds = [] ∧ (standard 0x7E8#29).extended = false ∧
    0x7E8 ≤ (standard 0x7E8#29).id.toNat ∧ (standard 0x7EF#29).id.toNat ≤ 0x7EF := by decide
/-- For RequestIsPaddedToEightBytes, EncodeReqCompletes and ReqCompletes: the boundary lengths 8, 9 and 1. -/
theorem test_witness_requests : ([0x22#8] ++ (some 0xF1#8).toList ++ bytes 6).length ≤ 8 ∧
    8 < ([0x22#8] ++ (some 0xF1#8).toList ++ bytes 7).length ∧ ([0x22#8] ++ (none : Option Byte).toList ++ []).length ≤ 8 := by decide
theorem test_witness_CodecIsPure : ∃ (i : Instr) (s s' : State), (∃ d, i = .classify d) ∧ s.cfg = s'.cfg ∧ s ≠ s' :=
  ⟨.classify [], mid, State.reset, ⟨[], rfl⟩, rfl, by decide⟩
theorem test_witness_SingleFrameIsDelivered : mid.session.rxReady = true ∧ State.reset.session.rxReady = true ∧
    (7#3 : BitVec 3).toNat ≤ (bytes 7).length ∧ (0#3 : BitVec 3).toNat ≤ ([] : List Byte).length := by decide
theorem test_witness_FirstFrameOpensASession : mid.session.rxReady = true ∧ (bytes 6).length = 6 ∧
    6 ≤ (0#4 : Nibble).toNat * 256 + (6#8 : Byte).toNat ∧ 6 ≤ (0xF#4 : Nibble).toNat * 256 + (0xFF#8 : Byte).toNat := by decide
theorem test_witness_FirstFrameBelowSixOverflows : State.reset.session.rxReady = true ∧ (bytes 6).length = 6 ∧
    (0#4 : Nibble).toNat * 256 + (5#8 : Byte).toNat < 6 := by decide
theorem test_witness_LastFirstFrameWins : (∃ (s : State) (r : Receiving), s.session = .awaitingConsecutive r) ∧
    (bytes 6).length = 6 ∧ 6 ≤ (0#4 : Nibble).toNat * 256 + (6#8 : Byte).toNat := ⟨⟨mid, _, rfl⟩, by decide, by decide⟩
theorem test_witness_SequenceMismatchAborts :
    ∃ (s : State) (r : Receiving) (sn : Nibble), s.session = .awaitingConsecutive r ∧ (bytes 7).length = 7 ∧ sn ≠ r.nextSequence :=
  ⟨mid, _, 3#4, rfl, rfl, by decide⟩

/-- `A{20, 13, 2, 7E8}` meets the session invariant, with `k = 1`. -/
theorem test_mid_session_inv : mid.session.Inv :=
  ⟨by unfold bufferHolds; decide, ⟨1, by decide, by decide, by decide, by decide, by decide⟩, by decide⟩
/-- `A{6, 6, 1, 7E8}` meets it, with `k = 0`. -/
theorem test_six_session_inv : (awaiting 6#12 (bytes 6) 1#4 0x7E8#29).session.Inv :=
  ⟨by unfold bufferHolds; decide, ⟨0, by decide, by decide, by decide, by decide, by decide⟩, by decide⟩
theorem test_witness_ConsecutiveFrameIsAccepted :
    (∃ r : Receiving, mid.session = .awaitingConsecutive r ∧ r.Inv ∧ r.bufLen.toNat + min 7 (r.expectedLength.toNat - r.bufLen.toNat) = r.expectedLength.toNat) ∧
    (∃ r : Receiving, (awaiting 14#12 (bytes 6) 1#4 0x7E8#29).session = .awaitingConsecutive r ∧ r.Inv ∧
      r.bufLen.toNat + min 7 (r.expectedLength.toNat - r.bufLen.toNat) < r.expectedLength.toNat) :=
  ⟨⟨_, rfl, test_mid_session_inv, by decide⟩,
    ⟨_, rfl, ⟨by unfold bufferHolds; decide, ⟨0, by decide, by decide, by decide, by decide, by decide⟩, by decide⟩, by decide⟩⟩
/-- For IgnoredFramesAreSilent, ClassificationErrorsAbort and ConsecutiveSenderIsNotCompared. -/
theorem test_witness_IgnoredFramesAreSilent : State.reset.session = .idle ∧ (bytes 7).length = 7 ∧ mid.session.rxReady = true := by decide
theorem test_witness_ShortFramesAbort : mid.session.rxReady = true ∧ (bytes 6).length < (7#3 : BitVec 3).toNat ∧
    (bytes 6).length < 7 ∧ (bytes 1).length < 2 := by decide
theorem test_witness_ErrorComesWithAborted :
    ∃ t : State, exec .expire mid = .next t ∧ t.out = .error .timeoutError ∧ t.session = .aborted .timeoutError := ⟨_, rfl, rfl, rfl⟩
theorem test_witness_TerminalStateHoldsEveryFrame : (completed thirteen).session.rxReady = false ∧ (aborted .overflow).session.rxReady = false ∧
    (Instr.rxEmpty ecu).frame = some (dataFrame ecu []) := by decide
theorem test_witness_TerminalStateIsLeftOnlyByClearOrReset :
    ∃ t : State, exec .expire (completed thirteen) = .next t ∧ (completed thirteen).session.rxReady = false ∧
      Instr.expire ≠ .clear ∧ Instr.expire ≠ .reset := ⟨_, rfl, rfl, by decide, by decide⟩
theorem test_witness_DeliveredPayloadIsTheHeldOne :
    ∃ t : State, exec (.rxCf ecu 2#4 (bytes 7)) mid = .next t ∧ mid.session.done = false ∧ t.session.done = true := ⟨_, rfl, rfl, rfl⟩
theorem test_witness_ReceiveTransitionTable : State.reset.session.rxReady = true ∧ State.reset.session.Inv ∧
    mid.session.rxReady = true ∧ mid.session.Inv := ⟨rfl, trivial, rfl, test_mid_session_inv⟩
/-- A frame for each clause of ReceiveTransitionTable on the classification, at the lengths where clauses meet. -/
theorem test_witness_ReceiveTransitionTable_frames :
    classify [] = .error .frameTooShort ∧ classify [0x00#8] = .ok (.single 0#4 []) ∧
    classify (0x10#8 :: 0x06#8 :: bytes 6) = .ok (.first 6#12 (bytes 6)) ∧
    classify (0x10#8 :: 0x05#8 :: bytes 6) = .ok (.first 5#12 (bytes 6)) ∧
    classify (0x22#8 :: bytes 7) = .ok (.consecutive 2#4 (bytes 7)) ∧
    classify (0x30#8 :: bytes 2) = .ok (.flowControl 0#4 0x55#8 0x55#8) := ⟨rfl, rfl, rfl, rfl, rfl, rfl⟩
/-- For the clauses of ReceiveTransitionTable on an accepted Consecutive frame: one that goes on, one that completes. -/
theorem test_witness_ReceiveTransitionTable_sessions :
    (∃ r, (awaiting 14#12 (bytes 6) 1#4 0x7E8#29).session = .awaitingConsecutive r ∧ r.bufLen.toNat + 7 < r.expectedLength.toNat) ∧
    (∃ r, (awaiting 13#12 (bytes 6) 1#4 0x7E8#29).session = .awaitingConsecutive r ∧ r.expectedLength.toNat ≤ r.bufLen.toNat + 7) :=
  ⟨⟨_, rfl, by decide⟩, ⟨_, rfl, by decide⟩⟩
/-- For ExpireAbortsAnArmedSession and ExpireIsNotEnabledUnarmed. -/
theorem test_witness_Expire : mid.session.deadlineArmed = true ∧ State.reset.session.deadlineArmed = false := by decide
theorem test_witness_FlowControlOnlyForAcceptedFirst :
    ∃ t f, exec (.rxFf ecu 0#4 (6#8 :: bytes 6)) State.reset = .next t ∧ t.out = .tx f ∧ ∀ m p e, Instr.rxFf ecu 0#4 (6#8 :: bytes 6) ≠ .encodeReq m p e :=
  ⟨_, _, rfl, rfl, by simp⟩
theorem test_witness_ConfigurationIsStatic : ∃ t : State, exec .reset mid = .next t := ⟨_, rfl⟩
theorem test_witness_DeadlineArmingLaw :
    (∃ t r r', exec (.rxCf ecu 1#4 (bytes 7)) (awaiting 20#12 (bytes 6) 1#4 0x7E8#29) = .next t ∧
      (awaiting 20#12 (bytes 6) 1#4 0x7E8#29).session = .awaitingConsecutive r ∧ t.session = .awaitingConsecutive r') ∧
    (∃ t r r', exec .evtRsvd5 mid = .next t ∧ mid.session = .awaitingConsecutive r ∧ t.session = .awaitingConsecutive r') :=
  ⟨⟨_, _, _, rfl, rfl, rfl⟩, ⟨_, _, _, rfl, rfl, rfl⟩⟩
theorem test_witness_TimerComparisonSurvivesOneWrap : 0 < 8 ∧ 127 < 2 ^ (8 - 1) ∧ 254 < 127 + 2 ^ (8 - 1) ∧ 0 < 127 + 2 ^ (8 - 1) := by decide
/-- The comparison on numbers: armed at 250 for 10 ticks of an 8-bit counter, passed at 4, not at 3 (R145). -/
theorem test_timer_wraps : deadlinePassed (4#8) (250#8 + 10#8) = true ∧ deadlinePassed (3#8) (250#8 + 10#8) = false := by decide
theorem test_witness_FrameOfSessionlessRows : (∃ t : State, exec (.rxRtr ecu []) mid = .next t ∧ mid.session.rxReady = true) ∧
    (∃ t : State, exec (.rxFc ecu 0#4 (bytes 2)) mid = .next t ∧ 2 ≤ (bytes 2).length) ∧
    (∃ t : State, exec (.rxSf ecu 7#3 (bytes 7)) mid = .next t ∧ (7#3 : BitVec 3).toNat ≤ (bytes 7).length) ∧
    (∃ t : State, exec (.rxCf ecu 0#4 (bytes 7)) State.reset = .next t ∧ State.reset.session = .idle) ∧
    (∃ t : State, exec .expire State.reset = .next t ∧ State.reset.session.deadlineArmed = false) :=
  ⟨⟨_, rfl, rfl⟩, ⟨_, rfl, by decide⟩, ⟨_, rfl, by decide⟩, ⟨_, rfl, rfl⟩, ⟨_, rfl, rfl⟩⟩
theorem test_witness_FrameOfAcceptedConsecutive :
    ∃ (t : State) (r : Receiving), mid.session = .awaitingConsecutive r ∧ exec (.rxCf ecu 2#4 (bytes 7)) mid = .next t ∧ t.session.error = false :=
  ⟨_, _, rfl, rfl, rfl⟩
theorem test_witness_FrameOfFirst :
    (∃ t : State, exec (.rxFf ecu 0#4 (6#8 :: bytes 6)) mid = .next t ∧ t.session.error = false) ∧
    (∃ t : State, exec (.rxFf ecu 0#4 (5#8 :: bytes 6)) mid = .next t ∧ t.session.error = true) := ⟨⟨_, rfl, rfl⟩, ⟨_, rfl, rfl⟩⟩
theorem test_witness_BufferPrimitives : 4089 + (bytes 6).length ≤ 4095 ∧
    memRead (Memory.writeBytes [] 0 (bytes 6)) 6 4 2 = some (bytes 2) := by decide
theorem test_witness_invariant : mid.Inv :=
  ⟨test_mid_session_inv, trivial, by decide, by simp [mid, awaiting, State.reset], by simp [mid, awaiting, State.reset]⟩
theorem test_witness_EveryInstructionCompletes : (Instr.rxCf ecu 2#4 (bytes 7)).wf = true ∧ mid.Inv := ⟨by decide, test_witness_invariant⟩
theorem test_witness_StepKeepsTheInvariant : ∃ s t : State, s.Inv ∧ step s = .next t :=
  ⟨mid, _, test_witness_invariant, rfl⟩
theorem test_witness_ReassemblyDeliversTheConcatenation : State.reset.session.rxReady = true ∧ (bytes 6).length = 6 ∧
    6 ≤ (0#4 : Nibble).toNat * 256 + (20#8 : Byte).toNat ∧ (∀ c ∈ [(ecu, bytes 7), (ecu, bytes 7)], c.2.length = 7) ∧
    [(ecu, bytes 7), (ecu, bytes 7)].length = framesToComplete ((0#4 : Nibble).toNat * 256 + (20#8 : Byte).toNat) := by decide
/-- The counts of frames the table of 95_test_vectors.md, section 2.6, gives. -/
theorem test_framesToComplete : [6, 7, 13, 14, 20, 118, 4095].map framesToComplete = [1, 1, 1, 2, 2, 16, 585] := by decide
/-- The hardware's order of one boundary (R187) and the identifier filter (R161), at the ends of its range. -/
theorem test_boundary_order : inBoundaryOrder [.reset, .clear, .expire, .rxEmpty ecu, .encodeReq 1#8 none []] = true ∧
    inBoundaryOrder [.rxEmpty ecu, .expire] = false ∧
    passesFilter (dataFrame ecu []) = true ∧ passesFilter (dataFrame (standard 0x7EF#29) []) = true ∧
    passesFilter (dataFrame (standard 0x7F0#29) []) = false ∧ passesFilter (dataFrame (standard 0x7DF#29) []) = false := by decide
/-- Validation (R162): P1's payload, too short a payload (D27), and modes whose sum with 0x40 is no byte (R6). -/
theorem test_response_matches : responseMatches 0x09#8 (some 0x02#8) [0x49#8, 0x02#8, 0x01#8] = true ∧
    responseMatches 0x09#8 (some 0x02#8) [0x49#8] = false ∧ responseMatches 0x03#8 none [] = false ∧
    responseMatches 0xBF#8 none [0xFF#8] = true ∧ responseMatches 0xC0#8 none [0x00#8] = false ∧
    responseMatches 0xC1#8 none [0x01#8] = false := by decide

/-- A move that gives no request up. -/
def move (i : Instr) : HostMove := { event := i, givenUp := none }
/-- The request of program P2 and its book. -/
def speed : HostBook := { request := some { mode := 0x01#8, pid := some 0x0D#8, extra := [] }, owed := .nothing }
/-- The Single frame `03 41 0D 32`, which answers it. -/
def answer : Instr := .rxSf ecu 3#3 [0x41#8, 0x0D#8, 0x32#8]

/-- A match ends the request with its `CLEAR`, after which a new one may come (R160, R162; P2, steps 7 to 9). -/
theorem test_host_match : dutifulToTheEnd .free State.reset [move (.encodeReq 1#8 (some 0x0D#8) []), move answer, move .clear] = true ∧
    dutiful speed State.reset [move answer, move (.rxRtr ecu [])] = false ∧
    dutiful speed State.reset [move answer, move .clear, move (.encodeReq 9#8 none [])] = true := by decide
/-- After a mismatch from `Complete` the `CLEAR` is owed and the request stays in flight (R160, R162). -/
theorem test_host_mismatch : bookAfter speed mid [move (.rxCf ecu 2#4 (bytes 7))] = some { speed with owed := .thenWait } ∧
    bookAfter speed mid [move (.rxCf ecu 2#4 (bytes 7)), move .clear] = some speed ∧
    dutiful speed mid [move (.rxCf ecu 2#4 (bytes 7)), move .clear, move (.encodeReq 9#8 none [])] = false := by decide
/-- After an `ERROR` the `CLEAR` is owed and ends the request; before it no frame is presented (R163, R167). -/
theorem test_host_error : bookAfter speed State.reset [move (.rxEmpty ecu), move .clear] = some .free ∧
    dutiful speed State.reset [move (.rxEmpty ecu), move (.rxEmpty ecu)] = false ∧
    dutifulToTheEnd speed State.reset [move (.rxEmpty ecu)] = false := by decide
/-- The window's end is answered by `CLEAR`, which ends the request in any state (R164). -/
theorem test_host_window : bookAfter speed mid [{ event := .clear, givenUp := some .windowEnded }] = some .free ∧
    dutiful speed mid [{ event := answer, givenUp := some .windowEnded }] = false ∧ bookAfter speed mid [move .clear] = some speed := by decide
/-- A request that fails with `TransportError` ends with its `CLEAR`, and another may come (R165, R167). -/
theorem test_host_transport_error :
    dutifulToTheEnd .free State.reset [move (.encodeReq 1#8 (some 0x0D#8) []), { event := .clear, givenUp := some .transportError }] = true ∧
    dutiful .free State.reset [move (.encodeReq 1#8 (some 0x0D#8) []), { event := .clear, givenUp := some .transportError }, move (.encodeReq 9#8 none [])] = true ∧
    dutiful .free State.reset [move (.encodeReq 1#8 (some 0x0D#8) []), move .clear, move (.encodeReq 9#8 none [])] = false := by decide
/-- The same request may be issued again, another may not (R160, R165, log 25); `RESET` does not end it (log 26); a new one needs the `CLEAR` before it (R141). -/
theorem test_host_second_request : dutiful speed State.reset [move (.encodeReq 1#8 (some 0x0D#8) [])] = true ∧
    dutiful speed State.reset [move (.encodeReq 9#8 (some 2#8) [])] = false ∧
    dutiful speed State.reset [move .reset, move (.encodeReq 9#8 (some 2#8) [])] = false ∧
    dutiful .free mid [move (.encodeReq 9#8 (some 2#8) [])] = false ∧
    dutiful .free mid [move .clear, move (.encodeReq 9#8 (some 2#8) [])] = true := by decide
theorem test_witness_DutifulEventsAreAccepted : mid.Inv ∧ (Instr.rxCf ecu 2#4 (bytes 7)).wf = true ∧
    speed.mayOccur mid (move (.rxCf ecu 2#4 (bytes 7))) = true ∧ speed.mayOccur mid (move .expire) = true ∧
    speed.mayOccur mid { event := .clear, givenUp := some .windowEnded } = true :=
  ⟨test_witness_invariant, by decide, by decide, by decide, by decide⟩
theorem test_witness_TerminalStateOwesAClear :
    (∃ t : State, speed.Knows mid ∧ speed.mayOccur mid (move (.rxCf ecu 2#4 (bytes 7))) = true ∧
      exec (.rxCf ecu 2#4 (bytes 7)) mid = .next t ∧ t.session.rxReady = false) ∧
    (∃ t : State, HostBook.Knows { speed with owed := .thenReturn } (aborted .overflow) ∧
      HostBook.mayOccur { speed with owed := .thenReturn } (aborted .overflow) (move .clear) = true ∧
      exec .clear (aborted .overflow) = .next t ∧ (aborted .overflow).session.rxReady = false) :=
  ⟨⟨_, by simp [HostBook.Knows, mid, awaiting, Session.rxReady], by decide, rfl, rfl⟩, ⟨_, by simp [HostBook.Knows], by decide, rfl, rfl⟩⟩

end Sys2Proof.Tests
end

section
/-! The family of 30_encoding.md: the row of a PCI byte from its nibbles (R62), the fields of a classified frame (R68, R69, R72), and the padded request (R67). -/

open Sys2Proof.Machine Sys2Proof.Laws

namespace Sys2Proof.Encoding

/-! ### A byte from its nibbles is the PCI byte of one row (R62 to R66, R71, R72) -/

theorem hiNibble_append_loNibble (b : Byte) : hiNibble b ++ loNibble b = b := by revert b; decide

theorem eq_pciSf (b : Byte) (h : hiNibble b = 0#4) (hl : (loNibble b).toNat ≤ 7) : b = pciSf ((loNibble b).setWidth 3) := by
  revert b; decide

theorem eq_pciSfLenRsvd (b : Byte) (h : hiNibble b = 0#4) (hl : 7 < (loNibble b).toNat) :
    b = pciSfLenRsvd ((loNibble b).setWidth 3) := by
  revert b; decide

theorem eq_pciFf (b : Byte) (h : hiNibble b = 1#4) : b = pciFf (loNibble b) := by
  rw [pciFf, ← h, hiNibble_append_loNibble]

theorem eq_pciCf (b : Byte) (h : hiNibble b = 2#4) : b = pciCf (loNibble b) := by
  rw [pciCf, ← h, hiNibble_append_loNibble]

theorem eq_pciFc (b : Byte) (h : hiNibble b = 3#4) : b = pciFc (loNibble b) := by
  rw [pciFc, ← h, hiNibble_append_loNibble]

theorem eq_pciRsvd47 (b : Byte) (h4 : 4 ≤ (hiNibble b).toNat) (h7 : (hiNibble b).toNat ≤ 7) : b = pciRsvd47 (b.setWidth 6) := by
  revert b; decide

theorem eq_pciRsvd8F (b : Byte) (h : 8 ≤ (hiNibble b).toNat) : b = pciRsvd8F (b.setWidth 7) := by
  revert b; decide

/-- The decoder of RX events looks at byte 0 only through the PCI byte it equals. -/
theorem decodePci_of_eq {b b' : Byte} {src : Sender} {rest : List Byte} {i : Instr} (h : b = b')
    (hi : decodePci src b' rest = i) : decodePci src b rest = i := by
  rw [h, hi]

/-! ### Classification by the high nibble (R91), and each variant on a long enough frame (R92 to R95) -/

theorem classify_of_hiNibble_zero {b : Byte} (rest : List Byte) (h : hiNibble b = 0#4) :
    classify (b :: rest) = classifySf (loNibble b) rest := by simp [classify, h]

theorem classify_of_hiNibble_one {b : Byte} (rest : List Byte) (h : hiNibble b = 1#4) :
    classify (b :: rest) = classifyFf (loNibble b) rest := by simp [classify, h]

theorem classify_of_hiNibble_two {b : Byte} (rest : List Byte) (h : hiNibble b = 2#4) :
    classify (b :: rest) = classifyCf (loNibble b) rest := by simp [classify, h]

theorem classify_of_hiNibble_three {b : Byte} (rest : List Byte) (h : hiNibble b = 3#4) :
    classify (b :: rest) = classifyFc (loNibble b) rest := by simp [classify, h]

/-- A Single length above 7 is illegal (R72). -/
theorem classifySf_above_seven (len : Nibble) (rest : List Byte) (h : 7 < len.toNat) :
    classifySf len rest = .error .singleLengthInvalid := if_pos h

/-- A Single frame carries as many bytes as its length says (R63, R92). -/
theorem classifySf_fits (len : Nibble) (rest : List Byte) (h : len.toNat ≤ 7) (hr : len.toNat ≤ rest.length) :
    classifySf len rest = .ok (.single len (rest.take len.toNat)) := by
  rw [classifySf, if_neg (Nat.not_lt.mpr h), if_neg (Nat.not_lt.mpr hr)]

/-- A First frame of 8 bytes (R64, R93). -/
theorem classifyFf_eight_bytes (high : Nibble) (low : Byte) (d : List Byte) (h : d.length = 6) :
    classifyFf high (low :: d) = .ok (.first (totalLength high low) d) := by
  simp [classifyFf, h, List.take_of_length_le]

/-- A Consecutive frame of 8 bytes (R65, R94). -/
theorem classifyCf_eight_bytes (sn : Nibble) (rest : List Byte) (h : rest.length = 7) :
    classifyCf sn rest = .ok (.consecutive sn rest) := by
  simp [classifyCf, h, List.take_of_length_le]

/-- A flow-control frame of at least 3 bytes; the bytes after them are not looked at (R66, R95). -/
theorem classifyFc_three_bytes (status : Nibble) (bs sep : Byte) (more : List Byte) :
    classifyFc status (bs :: sep :: more) = .ok (.flowControl status bs sep) := rfl

/-! ### The request's layout (R67, R90) -/

theorem requestPayload_eq_append (mode : Byte) (pid : Option Byte) (extra : List Byte) :
    requestPayload mode pid extra = [mode] ++ pid.toList ++ extra := rfl

theorem length_requestData (payload : List Byte) (h : payload.length ≤ 8) : (requestData payload).length = 8 := by
  rw [requestData, List.length_append, List.length_replicate, Nat.add_sub_of_le h]

/-- A request of at most 8 bytes is encoded (R90). -/
theorem encodeRequest_fits (cfg : Cfg) (mode : Byte) (pid : Option Byte) (extra : List Byte)
    (h : (requestPayload mode pid extra).length ≤ 8) :
    encodeRequest cfg mode pid extra =
      .ok { id := cfg.reqId, extended := cfg.reqExt, rtr := false, data := requestData (requestPayload mode pid extra) } :=
  if_neg (Nat.not_lt.mpr h)

/-! ### The obligations -/

/-- Settles O5: the nibbles name the row whose PCI byte this is, and the decoder gives that row its operand back. -/
theorem pciByteSelectsTheRow : Obligations.PciByteSelectsTheRow := by
  intro src b rest
  refine ⟨fun ⟨h, hl⟩ => ?sf, fun ⟨h, hl⟩ => ?sfLenRsvd, fun h => ?ff, fun h => ?cf, fun h => ?fc, fun ⟨h4, h7⟩ => ?rsvd47,
    fun h => ?rsvd8F⟩
  case sf => exact decodePci_of_eq (eq_pciSf b h hl) (decodePci_pciSf ..)
  case sfLenRsvd => exact decodePci_of_eq (eq_pciSfLenRsvd b h hl) (decodePci_pciSfLenRsvd ..)
  case ff => exact decodePci_of_eq (eq_pciFf b h) (decodePci_pciFf ..)
  case cf => exact decodePci_of_eq (eq_pciCf b h) (decodePci_pciCf ..)
  case fc => exact decodePci_of_eq (eq_pciFc b h) (decodePci_pciFc ..)
  case rsvd47 => exact decodePci_of_eq (eq_pciRsvd47 b h4 h7) (decodePci_pciRsvd47 ..)
  case rsvd8F => exact decodePci_of_eq (eq_pciRsvd8F b h) (decodePci_pciRsvd8F ..)

/-- Settles O11: the length is `totalLength`, whose value is the big-endian one and whose width bounds it. -/
theorem firstLengthIsBigEndian : Obligations.FirstLengthIsBigEndian := by
  intro b low d h hd
  refine ⟨totalLength (loNibble b) low, ?_, totalLength_toNat .., Nat.le_of_lt_succ (totalLength (loNibble b) low).isLt⟩
  rw [classify_of_hiNibble_one _ h, classifyFf_eight_bytes _ _ _ hd]

/-- Settles O10: both halves are the Single classification, refused above 7 and taking no byte at 0. -/
theorem singleLengthNibble : Obligations.SingleLengthNibble := by
  intro b rest h
  rw [classify_of_hiNibble_zero rest h]
  refine ⟨classifySf_above_seven _ rest, fun h0 => ?_⟩
  have hl : loNibble b = 0#4 := BitVec.eq_of_toNat_eq h0
  rw [hl]
  exact classifySf_fits 0#4 rest (Nat.zero_le _) (Nat.zero_le _)

/-- Settles O12: one variant of the classification per clause. -/
theorem fieldsAreTakenAsTheyStand : Obligations.FieldsAreTakenAsTheyStand := by
  intro b rest
  refine ⟨fun h hl hr => ?single, fun h hr => ?consecutive, fun bs sep more h hr => ?flowControl⟩
  case single => rw [classify_of_hiNibble_zero rest h, classifySf_fits _ _ hl hr]
  case consecutive => rw [classify_of_hiNibble_two rest h, classifyCf_eight_bytes _ _ hr]
  case flowControl => rw [classify_of_hiNibble_three rest h, hr, classifyFc_three_bytes]

/-- Settles O17: the encoded frame carries `requestData` of the payload. -/
theorem requestIsPaddedToEightBytes : Obligations.RequestIsPaddedToEightBytes := by
  intro cfg mode pid extra h
  rw [← requestPayload_eq_append] at h ⊢
  exact ⟨_, encodeRequest_fits cfg mode pid extra h, length_requestData _ h, rfl⟩

end Sys2Proof.Encoding
end

section
/-! The family of 40_codec.md: each function of the codec unit as a function of its operands and the configuration (R90, R91, R98), the purity that follows (R99), and the reserved PCI types (R96). -/

open Sys2Proof.Machine Sys2Proof.Laws

namespace Sys2Proof.CodecUnit

/-! ### The result of each codec function, with no state in it -/

/-- The output event of `ENCODE_REQ` (R90): the request frame to transmit, or the error. -/
def requestOutput (mode : Byte) (pid : Option Byte) (extra : List Byte) (cfg : Cfg) : Output :=
  match encodeRequest cfg mode pid extra with
  | .error c => .error c
  | .ok f    => .tx f

/-- What `REQ` shows (R67, R90): the request frame, or the error. -/
def requestShown (mode : Byte) (pid : Option Byte) (extra : List Byte) (cfg : Cfg) : CodecOut :=
  match encodeRequest cfg mode pid extra with
  | .error c => .failed c
  | .ok f    => .frame f

/-- What `CLASSIFY` shows (R91): the variant, or the error. -/
def classifyShown (data : List Byte) : CodecOut :=
  match classify data with
  | .error c => .failed c
  | .ok v    => .variant v

theorem exec_encodeReq (mode : Byte) (pid : Option Byte) (extra : List Byte) (s : State) :
    exec (.encodeReq mode pid extra) s = .next (emit (requestOutput mode pid extra s.cfg) s) := by
  simp only [exec, execEncodeReq, requestOutput]
  cases encodeRequest s.cfg mode pid extra <;> rfl

theorem exec_req (mode : Byte) (pid : Option Byte) (extra : List Byte) (s : State) :
    exec (.req mode pid extra) s = .next (showCodec (requestShown mode pid extra s.cfg) s) := by
  simp only [exec, execReq, requestShown]
  cases encodeRequest s.cfg mode pid extra <;> rfl

theorem exec_classify (data : List Byte) (s : State) :
    exec (.classify data) s = .next (showCodec (classifyShown data) s) := by
  simp only [exec, execClassify, classifyShown]
  cases classify data <;> rfl

theorem exec_encodeFc (status : Nibble) (bs sep : Byte) (s : State) :
    exec (.encodeFc status bs sep) s = .next (showCodec (.bytes (encodeFcData s.cfg.fcFill status bs sep)) s) := rfl

theorem exec_fcCts (src : Sender) (s : State) :
    exec (.fcCts src) s = .next (showCodec (.frame (ctsFrame s.cfg src)) s) := rfl

/-! ### Purity (R99) -/

/-- The adapter gets a frame only with a `TX` (R33). -/
theorem emit_txQueue_of_ne_tx (o : Output) (s : State) (h : ∀ f, o ≠ .tx f) : (emit o s).txQueue = s.txQueue := by
  cases o with
  | tx f => exact absurd rfl (h f)
  | none | deliver | error => rfl

/-- The conclusion of R99 for one instruction in two states: it completes in both with one result, and what the block and the environment hold stays. -/
def PureOn (i : Instr) (s s' : State) : Prop :=
  ∃ t t' : State, exec i s = .next t ∧ exec i s' = .next t' ∧ t.out = t'.out ∧ t.codec = t'.codec ∧
    t.session = s.session ∧ t.cfg = s.cfg ∧ t.rxQueue = s.rxQueue ∧ t.inputs = s.inputs ∧
    ((∀ f, t.out ≠ .tx f) → t.txQueue = s.txQueue)

/-- An instruction that only emits an output computed from the configuration is pure. -/
theorem pureOn_of_emit {i : Instr} (o : Cfg → Output) (h : ∀ s, exec i s = .next (emit (o s.cfg) s)) {s s' : State}
    (hcfg : s.cfg = s'.cfg) : PureOn i s s' :=
  ⟨_, _, h s, h s', by rw [emit_out, emit_out, hcfg], by rw [emit_codec, emit_codec], emit_session .., emit_cfg .., emit_rxQueue .., emit_inputs ..,
    fun hout => emit_txQueue_of_ne_tx _ s (by simpa only [emit_out] using hout)⟩

/-- An instruction that only shows a result computed from the configuration is pure. -/
theorem pureOn_of_showCodec {i : Instr} (c : Cfg → CodecOut) (h : ∀ s, exec i s = .next (showCodec (c s.cfg) s)) {s s' : State}
    (hcfg : s.cfg = s'.cfg) : PureOn i s s' :=
  ⟨_, _, h s, h s', rfl, congrArg c hcfg, rfl, rfl, rfl, rfl, fun _ => rfl⟩

/-! ### The obligations -/

/-- Settles O20: one case per codec function, each a function of the configuration once its operands are fixed. -/
theorem codecIsPure : Obligations.CodecIsPure := by
  intro i s s' hi hcfg
  obtain ⟨m, p, e, rfl⟩ | ⟨d, rfl⟩ | ⟨f, b, t, rfl⟩ | ⟨src, rfl⟩ | ⟨m, p, e, rfl⟩ := hi
  · exact pureOn_of_emit _ (exec_encodeReq m p e) hcfg
  · exact pureOn_of_showCodec (fun _ => classifyShown d) (exec_classify d) hcfg
  · exact pureOn_of_showCodec (fun cfg => .bytes (encodeFcData cfg.fcFill f b t)) (exec_encodeFc f b t) hcfg
  · exact pureOn_of_showCodec (fun cfg => .frame (ctsFrame cfg src)) (exec_fcCts src) hcfg
  · exact pureOn_of_showCodec _ (exec_req m p e) hcfg

/-- Settles O9: a high nibble of 4 or more is none of the four that `classify` accepts, so it reaches the last branch. -/
theorem reservedPciTypesFailClassification : Obligations.ReservedPciTypesFailClassification := by
  intro b rest h
  exact classify_reserved b rest h

end Sys2Proof.CodecUnit
end

section
/-! The family of 41_reassembler.md: an RX row while the block is ready (R110), a First frame as a step that does not read the session it replaces (R115, R124), and the sequence mismatch (R117). -/

open Sys2Proof.Machine Sys2Proof.Laws Sys2Proof.Encoding

namespace Sys2Proof.Reassembler

/-! ### The rows of First and Consecutive frames while the block is ready (R110) -/

theorem rxReady_of_awaiting {s : State} {r : Receiving} (h : s.session = .awaitingConsecutive r) : s.session.rxReady = true := by
  rw [h]; rfl

theorem exec_rxFf_of_ready (src : Sender) (high : Nibble) (rest : List Byte) {s : State} (h : s.session.rxReady = true) :
    exec (.rxFf src high rest) s = receiveClassified src (classifyFf high rest) s := if_pos h

theorem exec_rxCf_of_ready (src : Sender) (sn : Nibble) (rest : List Byte) {s : State} (h : s.session.rxReady = true) :
    exec (.rxCf src sn rest) s = receiveClassified src (classifyCf sn rest) s := if_pos h

/-! ### First frames (R115, R116, R124) -/

/-- The First row's classification: too short, or a First frame (R93). -/
theorem classifyFf_cases (high : Nibble) (rest : List Byte) :
    classifyFf high rest = .error .frameTooShort ∨ ∃ total d, classifyFf high rest = .ok (.first total d) := by
  cases rest with
  | nil => exact .inl rfl
  | cons low d =>
    rw [classifyFf]
    split
    · exact .inl rfl
    · exact .inr ⟨_, _, rfl⟩

/-- The abort procedure does not read the session it replaces (R188). -/
theorem raise_session (c : Cause) (σ : Session) (s : State) : raise c { s with session := σ } = raise c s := rfl

/-- A First frame does not read the session it replaces (R124). -/
theorem receiveFirst_session (src : Sender) (total : Count) (d : List Byte) (σ : Session) (s : State) :
    receiveFirst src total d { s with session := σ } = receiveFirst src total d s := rfl

/-- Whatever the First row's frame is classified as, its step does not read the session (R124). -/
theorem receiveClassified_classifyFf_session (src : Sender) (high : Nibble) (rest : List Byte) (σ : Session) (s : State) :
    receiveClassified src (classifyFf high rest) { s with session := σ } = receiveClassified src (classifyFf high rest) s := by
  obtain h | ⟨total, d, h⟩ := classifyFf_cases high rest
  · rw [h]; exact raise_session _ σ s
  · rw [h]; exact receiveFirst_session src total d σ s

/-- A First frame of at least 6 bytes opens a session whose buffer is its six bytes alone, and transmits one flow-control frame (R115). -/
theorem receiveFirst_opens (src : Sender) (total : Count) (d : List Byte) (s : State) (ht : 6 ≤ total.toNat) (hd : d.length = 6) :
    receiveFirst src total d s =
      .next { emit (.tx (ctsFrame s.cfg src)) s with session := openedSession src total (Memory.writeBytes [] 0 d) s } := by
  rw [receiveFirst, if_neg (Nat.not_lt.mpr ht), first_memWrite d hd.le]

/-- The row `RX.FF` with 8 data bytes and a length of at least 6 opens that session (R115). -/
theorem exec_rxFf_opens (src : Sender) (high : Nibble) (low : Byte) (d : List Byte) {s : State} (hr : s.session.rxReady = true)
    (hd : d.length = 6) (hl : 6 ≤ high.toNat * 256 + low.toNat) :
    exec (.rxFf src high (low :: d)) s =
      .next { emit (.tx (ctsFrame s.cfg src)) s with
              session := openedSession src (totalLength high low) (Memory.writeBytes [] 0 d) s } := by
  rw [← totalLength_toNat] at hl
  rw [exec_rxFf_of_ready _ _ _ hr, classifyFf_eight_bytes _ _ _ hd]
  exact receiveFirst_opens src _ d s hl hd

/-- A buffer that only the bytes `d` were written into holds `d` from address 0 on, and nothing else (R22, R44). -/
theorem read_writeBytes_empty (d : List Byte) (a : Nat) : Memory.read (Memory.writeBytes [] 0 d) a = d[a]? := by
  rw [read_writeBytes]
  split
  · rfl
  · rename_i h
    exact (List.getElem?_eq_none (by omega)).symm

/-- The readable bytes of an opened session are the First frame's six (R22, R115). -/
theorem readByte_openedSession (src : Sender) (total : Count) (d : List Byte) (s : State) (hd : d.length = 6) (a : Nat) :
    (openedSession src total (Memory.writeBytes [] 0 d) s).readByte a = d[a]? := by
  change (if a < 6 then Memory.read (Memory.writeBytes [] 0 d) a else none) = d[a]?
  rw [read_writeBytes_empty]
  split
  · rfl
  · exact (List.getElem?_eq_none (by omega)).symm

/-! ### Consecutive frames (R117) -/

/-- Any other sequence number than the expected one aborts (R117). -/
theorem receiveConsecutive_mismatch {sn : Nibble} (d : List Byte) {s : State} {r : Receiving}
    (hs : s.session = .awaitingConsecutive r) (hn : sn ≠ r.nextSequence) :
    receiveConsecutive sn d s = raise .sequenceMismatch s := by
  rw [receiveConsecutive, hs]
  exact if_pos hn

/-! ### The obligations -/

/-- Settles O24: the step of a First frame does not read the session, so it is the step from `Idle`; the opened session's buffer is written from empty. -/
theorem lastFirstFrameWins : Obligations.LastFirstFrameWins := by
  intro s r src high rest hs
  have hr := rxReady_of_awaiting hs
  refine ⟨?asFromIdle, ?opens⟩
  case asFromIdle =>
    rw [exec_rxFf_of_ready src high rest hr, exec_rxFf_of_ready (s := { s with session := .idle }) src high rest rfl]
    exact (receiveClassified_classifyFf_session src high rest .idle s).symm
  case opens =>
    rintro low d rfl hd hl
    exact ⟨_, ctsFrame s.cfg src, exec_rxFf_opens src high low d hr hd hl, emit_out .., rfl, rfl,
      readByte_openedSession src _ d s hd⟩

/-- Settles O25: the frame has its 7 bytes, so its sequence number is what decides, and a mismatch is the abort procedure. -/
theorem sequenceMismatchAborts : Obligations.SequenceMismatchAborts := by
  intro s r src sn d hs hd hn
  rw [exec_rxCf_of_ready src sn d (rxReady_of_awaiting hs), classifyCf_eight_bytes sn d hd]
  exact receiveConsecutive_mismatch d hs hn

end Sys2Proof.Reassembler
end

section
/-! The family of 60_exceptions.md: what an aborted session shows (R24, R26 to R28), and the abort procedure (R188). -/

open Sys2Proof.Machine Sys2Proof.Laws

namespace Sys2Proof.Exceptions

/-! ### What an aborted session shows: the cause's code and nothing else -/

@[simp] theorem errCode_aborted (c : Cause) : (Session.aborted c).errCode = some c.code := rfl
@[simp] theorem deadlineArmed_aborted (c : Cause) : (Session.aborted c).deadlineArmed = false := rfl
@[simp] theorem readByte_aborted (c : Cause) (a : Nat) : (Session.aborted c).readByte a = none := rfl
@[simp] theorem heldResult_aborted (c : Cause) : (Session.aborted c).heldResult = none := rfl

/-! ### The obligation -/

/-- Settles O31: the new session is `Aborted` whatever the old one was, and the rest of the state is that of emitting `ERROR`. -/
theorem abortProcedure : Obligations.AbortProcedure := by
  intro c s
  refine ⟨{ emit (.error c) s with session := .aborted c }, rfl, rfl, ?errCode, ?deadline, ?buffer, ?result, ?out, ?txQueue,
    ?rxQueue, ?cfg, ?inputs⟩
  case errCode => exact errCode_aborted c
  case deadline => exact deadlineArmed_aborted c
  case buffer => exact readByte_aborted c
  case result => exact heldResult_aborted c
  case out => exact emit_out (.error c) s
  case txQueue => exact emit_error_txQueue c s
  case rxQueue => exact emit_rxQueue (.error c) s
  case cfg => exact emit_cfg (.error c) s
  case inputs => exact emit_inputs (.error c) s

end Sys2Proof.Exceptions
end

section
/-! The encoding both ways (30_encoding.md sections 1, 2, 3 and 7): a row from its frame (R81), an instruction from its image, every accepted image that of a well-formed instruction, and the bytes that are no event. -/

open Sys2Proof.Machine Sys2Proof.Laws

namespace Sys2Proof.Images

/-! ### A row and its frame (R60, R81) -/

/-- The frame of a well-formed instruction is a `CanFrame` (R60). -/
theorem frame_wf : ∀ i : Instr, WfFrame.Statement i
  | .rxSf src x rest        => WfFrame.rxSf src x rest
  | .rxSfLenRsvd src x rest => WfFrame.rxSfLenRsvd src x rest
  | .rxFf src x rest        => WfFrame.rxFf src x rest
  | .rxCf src x rest        => WfFrame.rxCf src x rest
  | .rxFc src x rest        => WfFrame.rxFc src x rest
  | .rxPciRsvd47 src x rest => WfFrame.rxPciRsvd47 src x rest
  | .rxPciRsvd8F src x rest => WfFrame.rxPciRsvd8F src x rest
  | .rxEmpty src            => WfFrame.rxEmpty src
  | .rxRtr src data         => WfFrame.rxRtr src data
  | .rxHold f               => WfFrame.rxHold f
  | .rx f                   => WfFrame.rx f
  | .encodeReq m p e        => WfFrame.encodeReq m p e
  | .expire                 => WfFrame.expire
  | .clear                  => WfFrame.clear
  | .reset                  => WfFrame.reset
  | .evtRsvd5               => WfFrame.evtRsvd5
  | .evtRsvd6               => WfFrame.evtRsvd6
  | .evtRsvd7               => WfFrame.evtRsvd7
  | .classify data          => WfFrame.classify data
  | .encodeFc st bs sep     => WfFrame.encodeFc st bs sep
  | .fcCts src              => WfFrame.fcCts src
  | .req m p e              => WfFrame.req m p e

/-- The row the decoder gives a frame stands for that frame (R81). -/
theorem frame_decodeRx (f : CanFrame) : (decodeRx f).frame = some f := by
  obtain ⟨id, extended, rtr, data⟩ := f
  cases rtr with
  | true => rfl
  | false =>
    cases data with
    | nil => rfl
    | cons b rest => exact frame_decodePci ⟨id, extended⟩ b rest

/-- The row of a PCI byte is well formed when its sender is and fewer than 8 bytes follow (R60). -/
theorem wf_decodePci (src : Sender) (b : Byte) (rest : List Byte) :
    (decodePci src b rest).wf = (src.wf && decide (rest.length < Config.frameBytes)) := by
  obtain ⟨x, rfl⟩ | ⟨x, rfl⟩ | ⟨x, rfl⟩ | ⟨x, rfl⟩ | ⟨x, rfl⟩ | ⟨x, rfl⟩ | ⟨x, rfl⟩ := decodePci_cases b
  · rw [decodePci_pciSf]; rfl
  · rw [decodePci_pciSfLenRsvd]; rfl
  · rw [decodePci_pciFf]; rfl
  · rw [decodePci_pciCf]; rfl
  · rw [decodePci_pciFc]; rfl
  · rw [decodePci_pciRsvd47]; rfl
  · rw [decodePci_pciRsvd8F]; rfl

/-- The row of a `CanFrame` is well formed (R60). -/
theorem wf_decodeRx (f : CanFrame) (h : f.wf = true) : (decodeRx f).wf = true := by
  obtain ⟨id, extended, rtr, data⟩ := f
  cases rtr with
  | true => exact h
  | false =>
    cases data with
    | nil => exact (Bool.and_eq_true_iff.mp h).1
    | cons b rest => exact (wf_decodePci ⟨id, extended⟩ b rest).trans h

/-! ### Images read back -/

/-- A row that the decoder gives its own frame is read back from its image. -/
theorem decode_encode_row {i : Instr} {f : CanFrame} (hi : i.wf = true) (hf : i.frame = some f) (hd : decodeRx f = i) :
    decode (encode i) = .ok i := by
  subst hd
  rw [encode_decodeRx, decode_rxImage f (frame_wf _ hi f hf)]

theorem parseFramed_frameImage (k : CanFrame → Instr) (f : CanFrame) (h : f.wf = true) :
    parseFramed k (frameImage f) = .ok (k f) := by
  rw [parseFramed, parseFrame_frameImage f h]

theorem parseRequest_requestImage (k : Byte → Option Byte → List Byte → Instr) (mode : Byte) (pid : Option Byte) (extra : List Byte) :
    parseRequest k (requestImage mode pid extra) = .ok (k mode pid extra) := by
  cases pid <;> rfl

theorem parseClassify_of_length_le (data : List Byte) (h : data.length ≤ 8) : parseClassify data = .ok (.classify data) := if_pos h

theorem parseEncodeFc_image (status : Nibble) (bs sep : Byte) :
    parseEncodeFc [0#4 ++ status, bs, sep] = .ok (.encodeFc status bs sep) := by
  have hi : ∀ x : Nibble, hiNibble (0#4 ++ x) = 0#4 := by decide
  have lo : ∀ x : Nibble, loNibble (0#4 ++ x) = x := by decide
  rw [parseEncodeFc, if_pos (hi status), lo]

theorem parseFcCts_image (src : Sender) (h : src.wf = true) : parseFcCts (frameImage (dataFrame src [])) = .ok (.fcCts src) := by
  rw [parseFcCts, parseFrame_frameImage _ (WfFrame.rxEmpty src h _ rfl)]
  exact if_pos ⟨rfl, rfl⟩

/-! ### Accepted images are canonical -/

/-- The instruction is well formed and these bytes are its image. -/
def Canonical (i : Instr) (img : List Byte) : Prop := i.wf = true ∧ encode i = img

theorem canonical_of_parseBare {i j : Instr} {t : Byte} {ops : List Byte} (hc : Canonical i [t]) (h : parseBare i ops = .ok j) :
    Canonical j (t :: ops) := by
  cases ops with
  | nil => cases h; exact hc
  | cons => cases h

theorem canonical_of_parseFramed {k : CanFrame → Instr} {t : Byte} {ops : List Byte} {j : Instr}
    (hc : ∀ f : CanFrame, f.wf = true → Canonical (k f) (t :: frameImage f)) (h : parseFramed k ops = .ok j) : Canonical j (t :: ops) := by
  obtain ⟨f, rfl, hf, rfl⟩ := parseFramed_ok k ops j h
  exact hc f hf

theorem canonical_of_parseRequest {k : Byte → Option Byte → List Byte → Instr} {t : Byte} {ops : List Byte} {j : Instr}
    (hc : ∀ m p e, Canonical (k m p e) (t :: requestImage m p e)) (h : parseRequest k ops = .ok j) : Canonical j (t :: ops) := by
  obtain ⟨m, p, e, rfl, rfl⟩ := parseRequest_ok k ops j h
  exact hc m p e

theorem canonical_of_parseClassify {ops : List Byte} {j : Instr} (h : parseClassify ops = .ok j) : Canonical j (10#8 :: ops) := by
  rw [parseClassify] at h
  split at h
  · next hl => cases h; exact ⟨decide_eq_true hl, rfl⟩
  · cases h

theorem canonical_of_parseEncodeFc {ops : List Byte} {j : Instr} (h : parseEncodeFc ops = .ok j) : Canonical j (11#8 :: ops) := by
  have join : ∀ b : Byte, hiNibble b = 0#4 → 0#4 ++ loNibble b = b := by decide
  unfold parseEncodeFc at h
  split at h
  · next st bs sep =>
    split at h
    · next hst => cases h; exact ⟨rfl, by rw [encode, join st hst]⟩
    · cases h
  · cases h

theorem canonical_of_parseFcCts {ops : List Byte} {j : Instr} (h : parseFcCts ops = .ok j) : Canonical j (12#8 :: ops) := by
  unfold parseFcCts at h
  split at h
  · cases h
  · next f hf =>
    obtain ⟨hw, rfl⟩ := parseFrame_ok ops f hf
    obtain ⟨id, extended, rtr, data⟩ := f
    split at h
    · next hc =>
      obtain ⟨rfl, rfl⟩ := hc
      cases h
      exact ⟨(Bool.and_eq_true_iff.mp hw).1, rfl⟩
    · cases h

/-- What the decoder accepts is the image of the well-formed instruction it gives, tag by tag. -/
theorem canonical_of_decode {img : List Byte} {i : Instr} (h : decode img = .ok i) : Canonical i img := by
  cases img with
  | nil => cases h
  | cons t ops =>
    have tag : ∀ {k : Nat}, t.toNat = k → BitVec.ofNat 8 k = t := fun hk => by rw [← hk, BitVec.ofNat_toNat, BitVec.setWidth_eq]
    rw [decode] at h
    split at h
    · next hk =>
      rw [← tag hk]
      exact canonical_of_parseFramed (fun f hf => ⟨wf_decodeRx f hf, encode_decodeRx f⟩) h
    · next hk => rw [← tag hk]; exact canonical_of_parseRequest (fun _ _ _ => ⟨rfl, rfl⟩) h
    · next hk => rw [← tag hk]; exact canonical_of_parseBare ⟨rfl, rfl⟩ h
    · next hk => rw [← tag hk]; exact canonical_of_parseBare ⟨rfl, rfl⟩ h
    · next hk => rw [← tag hk]; exact canonical_of_parseBare ⟨rfl, rfl⟩ h
    · next hk => rw [← tag hk]; exact canonical_of_parseBare ⟨rfl, rfl⟩ h
    · next hk => rw [← tag hk]; exact canonical_of_parseBare ⟨rfl, rfl⟩ h
    · next hk => rw [← tag hk]; exact canonical_of_parseBare ⟨rfl, rfl⟩ h
    · next hk => rw [← tag hk]; exact canonical_of_parseFramed (k := .rx) (fun _ hf => ⟨hf, rfl⟩) h
    · next hk => rw [← tag hk]; exact canonical_of_parseFramed (k := .rxHold) (fun _ hf => ⟨hf, rfl⟩) h
    · next hk => rw [← tag hk]; exact canonical_of_parseClassify h
    · next hk => rw [← tag hk]; exact canonical_of_parseEncodeFc h
    · next hk => rw [← tag hk]; exact canonical_of_parseFcCts h
    · next hk => rw [← tag hk]; exact canonical_of_parseRequest (fun _ _ _ => ⟨rfl, rfl⟩) h
    · cases h

/-! ### Bytes that are no event (R60, U9; log 1, log 2) -/

theorem decode_lengthCodeAboveEight (h b3 b2 b1 b0 : Byte) (ops : List Byte) (h6 : h.extractLsb' 6 2 = 0#2) (h8 : 8 < (loNibble h).toNat) :
    decode (0x00#8 :: h :: b3 :: b2 :: b1 :: b0 :: ops) = .error .lengthCodeAboveEight := by
  have hf : parseFrame (h :: b3 :: b2 :: b1 :: b0 :: ops) = .error .lengthCodeAboveEight := by
    rw [parseFrame, if_neg (not_not_intro h6), if_pos h8]
  change parseFramed decodeRx _ = _
  rw [parseFramed, hf]

theorem decode_unassignedTag (t : Byte) (ops : List Byte) (h : 14 ≤ t.toNat) : decode (t :: ops) = .error .unassignedTag := by
  obtain ⟨k, hk⟩ := Nat.exists_eq_add_of_le' h
  rw [decode, hk]
  rfl

/-- Scripted bytes that are no event stop the step with the reason (log 4). -/
theorem step_of_decode_error {s : State} {img : List Byte} {later : List (List Byte)} {r : Reject} (hs : s.inputs = img :: later)
    (hd : decode img = .error r) : step s = .refused (.notAnEvent r) := by
  simp only [step, fetch, hs, hd]

/-! ### The obligations -/

/-- Settles O2: a row of a frame is what the decoder gives that frame; the other operands are read back field by field. -/
theorem decodeOfEncodeIsIdentity : Obligations.DecodeOfEncodeIsIdentity := by
  intro i hi
  cases i with
  | rxSf => exact decode_encode_row hi rfl (decodePci_pciSf ..)
  | rxSfLenRsvd => exact decode_encode_row hi rfl (decodePci_pciSfLenRsvd ..)
  | rxFf => exact decode_encode_row hi rfl (decodePci_pciFf ..)
  | rxCf => exact decode_encode_row hi rfl (decodePci_pciCf ..)
  | rxFc => exact decode_encode_row hi rfl (decodePci_pciFc ..)
  | rxPciRsvd47 => exact decode_encode_row hi rfl (decodePci_pciRsvd47 ..)
  | rxPciRsvd8F => exact decode_encode_row hi rfl (decodePci_pciRsvd8F ..)
  | rxEmpty => exact decode_encode_row hi rfl rfl
  | rxRtr => exact decode_encode_row hi rfl rfl
  | rxHold f => exact parseFramed_frameImage .rxHold f hi
  | rx f => exact parseFramed_frameImage .rx f hi
  | encodeReq m p e => exact parseRequest_requestImage .encodeReq m p e
  | req m p e => exact parseRequest_requestImage .req m p e
  | classify data => exact parseClassify_of_length_le data (of_decide_eq_true hi)
  | encodeFc st bs sep => exact parseEncodeFc_image st bs sep
  | fcCts src => exact parseFcCts_image src hi
  | expire | clear | reset | evtRsvd5 | evtRsvd6 | evtRsvd7 => rfl

/-- Settles O3: each parser accepts canonical operands only, and the tag is the one its branch matched. -/
theorem decodedImageIsCanonical : Obligations.DecodedImageIsCanonical := by
  intro img i h
  exact canonical_of_decode h

/-- Settles O4: the remote row and the empty row keep their frame as it is, and a PCI byte is its row's pattern with the free bits. -/
theorem rxDecoderKeepsTheFrame : Obligations.RxDecoderKeepsTheFrame :=
  fun f => ⟨frame_decodeRx f, wf_decodeRx f⟩

/-- Settles O1: closed images, evaluated. -/
theorem writtenWordsDecode : Obligations.WrittenWordsDecode :=
  ⟨rfl, rfl, rfl, rfl, rfl, rfl, rfl, rfl, rfl⟩

/-- Settles O6: the length code is checked before the identifier and the data are read, and no row has a first byte of 14 or more. -/
theorem imagesThatAreNoEventAreRefused : Obligations.ImagesThatAreNoEventAreRefused := by
  intro s ops later
  refine ⟨fun h b3 b2 b1 b0 h6 h8 => ?lengthCode, fun t ht => ?firstByte⟩
  case lengthCode => exact step_of_decode_error rfl (decode_lengthCodeAboveEight h b3 b2 b1 b0 ops h6 h8)
  case firstByte => exact step_of_decode_error rfl (decode_unassignedTag t ops ht)

end Sys2Proof.Images
end

section
/-! The buffer's primitives (20_memory.md section 4): what `MemRead` and `MemWrite` answer (R44). -/

open Sys2Proof.Machine Sys2Proof.Laws

namespace Sys2Proof.Buffer

/-- A read that succeeds lies below `bufLen` and gives the bytes at its addresses (R44). -/
theorem memRead_some {m : Memory} {bufLen addr n : Nat} {vs : List Byte} (h : memRead m bufLen addr n = some vs) :
    addr + n ≤ bufLen ∧ vs.length = n ∧ ∀ j, j < n → Memory.read m (addr + j) = vs[j]? := by
  rw [memRead] at h
  split at h
  · next hl => exact ⟨hl, (readBytes_spec m addr n vs).1 h⟩
  · cases h

/-- A write inside the buffer answers the written buffer (R44). -/
theorem memWrite_of_le (m : Memory) (addr : Nat) (vs : List Byte) (h : addr + vs.length ≤ 4095) :
    memWrite m addr vs = some (Memory.writeBytes m addr vs) := if_pos h

/-- Bytes written one after the other are their concatenation written at once. -/
theorem writeBytes_append (m : Memory) (a : Nat) (us vs : List Byte) :
    Memory.writeBytes m a (us ++ vs) = Memory.writeBytes (Memory.writeBytes m a us) (a + us.length) vs := by
  induction us generalizing m a with
  | nil => rfl
  | cons u us ih =>
    rw [List.length_cons, Nat.add_comm us.length, ← Nat.add_assoc]
    exact ih (Memory.write m a u) (a + 1)

/-- A buffer that only `vs` was written into is read back whole. -/
theorem memRead_writeBytes_empty (vs : List Byte) : memRead (Memory.writeBytes [] 0 vs) vs.length 0 vs.length = some vs := by
  rw [memRead, if_pos (Nat.zero_add _).le, readBytes_spec]
  refine ⟨rfl, fun j hj => ?_⟩
  rw [read_writeBytes, if_pos ⟨Nat.zero_le _, Nat.add_lt_add_left hj 0⟩, Nat.zero_add, Nat.sub_zero]

/-- Settles O52: the write's bytes, its canonical form, and the read's bytes are the buffer's laws. -/
theorem bufferPrimitives : Obligations.BufferPrimitives := by
  refine ⟨fun m addr vs h => ?write, fun m bufLen addr n vs h => ?read⟩
  case write =>
    exact ⟨_, memWrite_of_le m addr vs h, read_writeBytes m addr vs, fun hw => wf_writeBytes m addr vs hw h⟩
  case read =>
    obtain ⟨hle, hlen, hread⟩ := memRead_some h
    exact ⟨hle, hlen, fun j hj => (hread j hj).symm⟩

end Sys2Proof.Buffer
end

section
/-! The step (R9, log 4, log 19) and the dispatch of a received frame on its row (R81, R110; log 18). -/

open Sys2Proof.Machine Sys2Proof.Laws Sys2Proof.Images

namespace Sys2Proof.Dispatch

/-! ### The step -/

/-- A scripted event that decodes runs at the state with its image consumed (R9, log 4). -/
theorem step_scripted {s : State} {img : List Byte} {later : List (List Byte)} {i : Instr} (hs : s.inputs = img :: later)
    (hd : decode img = .ok i) : step s = exec i { s with inputs := later, tick := s.tick + 1 } := by
  simp only [step, fetch, hs, hd]
  rfl

/-- The adapter presents its oldest held frame to a ready block (log 19). -/
theorem adapterMove_presents {s : State} {f : CanFrame} {later : List CanFrame} (hq : s.rxQueue = f :: later)
    (hr : s.session.rxReady = true) : adapterMove s = .event (.rx f) { s with rxQueue := later } := by
  rw [adapterMove, hr, hq]

/-- With no frame to present the adapter puts its oldest TX frame on the bus (log 19). -/
theorem adapterMove_transmits {s : State} (h : s.rxQueue = [] ∨ s.session.rxReady = false) :
    adapterMove s = .noEvent { quiet s with txQueue := s.txQueue.tail } := by
  rw [adapterMove]
  obtain hq | hr := h
  · rw [hq]; cases s.session.rxReady <;> rfl
  · rw [hr]

theorem fetch_of_inputs_nil {s : State} (hs : s.inputs = []) : fetch s = adapterMove (atBoundary s) := by
  rw [fetch, hs]

/-- With nothing scripted a ready block is presented the oldest held frame (log 4, log 19). -/
theorem step_presents {s : State} {f : CanFrame} {later : List CanFrame} (hs : s.inputs = []) (hq : s.rxQueue = f :: later)
    (hr : s.session.rxReady = true) : step s = exec (.rx f) { s with rxQueue := later, tick := s.tick + 1 } := by
  rw [step, fetch_of_inputs_nil hs, adapterMove_presents (s := atBoundary s) hq hr]
  rfl

/-- With nothing scripted and no frame to present only the adapter moves (log 4, log 19). -/
theorem step_transmits {s : State} (hs : s.inputs = []) (h : s.rxQueue = [] ∨ s.session.rxReady = false) :
    step s = .next { quiet s with txQueue := s.txQueue.tail, tick := s.tick + 1 } := by
  rw [step, fetch_of_inputs_nil hs, adapterMove_transmits (s := atBoundary s) h]
  rfl

/-! ### The row an RX event runs under -/

/-- Every instruction runs as its row does: the dispatch of R110 agrees with the decoding of R81. -/
theorem exec_decodeRx {i : Instr} {f : CanFrame} (hf : i.frame = some f) (s : State) : exec i s = exec (decodeRx f) s := by
  rw [exec_frame i f s hf, exec_frame (decodeRx f) f s (frame_decodeRx f)]

theorem rowOf_of_frame {i : Instr} {f : CanFrame} (hf : i.frame = some f) : rowOf i = decodeRx f := by
  rw [rowOf, hf]

/-- An instruction that is no RX event is its own row. -/
theorem rowOf_of_frame_none {i : Instr} (hf : i.frame = none) : rowOf i = i := by
  rw [rowOf, hf]

theorem exec_rowOf (i : Instr) (s : State) : exec (rowOf i) s = exec i s := by
  cases hf : i.frame with
  | none => rw [rowOf_of_frame_none hf]
  | some f => rw [rowOf_of_frame hf, ← exec_decodeRx hf]

/-! ### The obligations -/

/-- Settles O36: `rx` and `rxHold` stand for the frame, and so does the row the decoder gives it. -/
theorem dispatchAgreesWithDecoding : Obligations.DispatchAgreesWithDecoding :=
  fun _ s => ⟨exec_decodeRx rfl s, exec_decodeRx rfl s⟩

/-- Settles O7: the next image is the environment's move. -/
theorem stepRunsTheDecodedInstruction : Obligations.StepRunsTheDecodedInstruction := by
  intro s img later i hs hd
  exact step_scripted hs hd

/-- Settles O8: the adapter's move, by whether it has a frame the block is ready for. -/
theorem stepWithNothingScripted : Obligations.StepWithNothingScripted := by
  intro s hs
  exact ⟨fun f later hq hr => step_presents hs hq hr, step_transmits hs⟩

end Sys2Proof.Dispatch
end

section
/-! What one instruction can do, one constructor for each outcome (R110 to R120, R140 to R146, R188): later families read a step's frame and invariants off it. -/

open Sys2Proof.Machine Sys2Proof.Laws Sys2Proof.Images Sys2Proof.Dispatch

namespace Sys2Proof.Effects

/-- The instruction has no step in this state: an expiry that is not enabled (R140) or a reserved tag (R146). -/
def HasNoStep (i : Instr) (s : State) : Prop :=
  i = .expire ∧ s.session.deadlineArmed = false ∨ i = .evtRsvd5 ∨ i = .evtRsvd6 ∨ i = .evtRsvd7

/-- The state after an instruction, by what happened. -/
inductive Effect (i : Instr) (s : State) : State → Prop
  /-- A frame in a terminal state stays with the adapter (R111). -/
  | held {f : CanFrame} (hf : i.frame = some f) (hr : s.session.rxReady = false) :
      Effect i s { quiet s with accepted := false, rxQueue := s.rxQueue ++ [f] }
  /-- A remote frame, a flow-control frame, or a Consecutive frame in `Idle` (R112, R119, R120). -/
  | ignored {f : CanFrame} (hf : i.frame = some f) (hr : s.session.rxReady = true) : Effect i s (quiet s)
  /-- A Single frame (R114). -/
  | delivered {f : CanFrame} {l : Nibble} {d : List Byte} (hf : i.frame = some f) (hr : s.session.rxReady = true)
      (hc : classify f.data = .ok (.single l d)) : Effect i s (emit (.deliver f.id f.extended d) s)
  /-- A First frame of at least 6 bytes (R115). -/
  | opened {f : CanFrame} {total : Count} {d : List Byte} (hf : i.frame = some f) (hr : s.session.rxReady = true)
      (hn : f.rtr = false) (hc : classify f.data = .ok (.first total d)) (ht : 6 ≤ total.toNat) :
      Effect i s { emit (.tx (ctsFrame s.cfg f.sender)) s with
                   session := openedSession f.sender total (Memory.writeBytes [] 0 d) s }
  /-- A Consecutive frame in sequence that leaves the session waiting (R118). -/
  | continued {f : CanFrame} {sn : Nibble} {d : List Byte} {r : Receiving} {buf : Memory} (hf : i.frame = some f)
      (hn : f.rtr = false) (hc : classify f.data = .ok (.consecutive sn d)) (hs : s.session = .awaitingConsecutive r)
      (hb : memWrite r.buf (appendAddr r) (d.take (appendCount r)) = some buf)
      (hl : r.bufLen.toNat + appendCount r ≠ r.expectedLength.toNat) :
      Effect i s { quiet s with session := continuedSession r buf (r.bufLen.toNat + appendCount r) s }
  /-- A Consecutive frame in sequence that completes the session (R118). -/
  | completed {f : CanFrame} {sn : Nibble} {d : List Byte} {r : Receiving} {buf : Memory} {p : List Byte} (hf : i.frame = some f)
      (hc : classify f.data = .ok (.consecutive sn d)) (hs : s.session = .awaitingConsecutive r)
      (hb : memWrite r.buf (appendAddr r) (d.take (appendCount r)) = some buf)
      (hl : r.bufLen.toNat + appendCount r = r.expectedLength.toNat)
      (hp : memRead buf (r.bufLen.toNat + appendCount r) 0 r.expectedLength.toNat = some p) :
      Effect i s { emit (.deliver r.peerId r.peerExt p) s with
                   session := completedSession r buf (r.bufLen.toNat + appendCount r) }
  /-- The abort procedure, from a state that was ready (R188). -/
  | aborted {c : Cause} (hc : c ≠ .encodeError) (hr : s.session.rxReady = true) :
      Effect i s { emit (.error c) s with session := .aborted c }
  /-- A request that is transmitted (R90). -/
  | requested {m : Byte} {p : Option Byte} {e : List Byte} {f : CanFrame} (hi : i = .encodeReq m p e)
      (hq : encodeRequest s.cfg m p e = .ok f) : Effect i s (emit (.tx f) s)
  /-- A request too long to encode, which latches nothing (R90). -/
  | notEncoded {m : Byte} {p : Option Byte} {e : List Byte} {c : Cause} (hi : i = .encodeReq m p e) : Effect i s (emit (.error c) s)
  /-- A codec function (R99). -/
  | shown (hf : i.frame = none) (c : CodecOut) : Effect i s (showCodec c s)
  /-- Nothing happens (R140, R146). -/
  | nothing (hi : HasNoStep i s) : Effect i s { quiet s with accepted := false }
  /-- The session is destroyed (R141, R142). -/
  | cleared (hi : i = .clear ∨ i = .reset) : Effect i s (discardSession s)

theorem rxReady_of_deadlineArmed {σ : Session} (h : σ.deadlineArmed = true) : σ.rxReady = true := by
  cases σ with
  | awaitingConsecutive => rfl
  | idle | complete | aborted => cases h

/-- Everything a received frame can do while the block is ready (R112 to R120). -/
theorem effect_of_receiveFrame {i : Instr} {f : CanFrame} {s t : State} (hf : i.frame = some f) (hr : s.session.rxReady = true)
    (h : receiveFrame f s = .next t) : Effect i s t := by
  obtain ⟨-, rfl⟩ | ⟨hn, hx⟩ := receiveFrame_cases f s t h
  · exact .ignored hf hr
  obtain ⟨e, he, rfl⟩ | ⟨l, d, hc, rfl⟩ | ⟨total, d, buf, hc, ht, hb, rfl⟩ | ⟨sn, d, r, hc, hs, -, ha⟩ | ⟨rfl, -⟩ :=
    receiveClassified_cases f.sender (classify f.data) s t hr hx
  · have hne : e ≠ .encodeError := by
      obtain hc | ⟨-, -, -, rfl⟩ | ⟨-, -, -, rfl⟩ := he
      · exact classify_error f.data e hc
      · decide
      · decide
    exact .aborted hne hr
  · exact .delivered hf hr hc
  · rw [memWrite_some [] 0 d buf hb]
    exact .opened hf hr hn hc ht
  · obtain ⟨buf, hb, ⟨hl, p, hp, rfl⟩ | ⟨hl, rfl⟩⟩ := acceptConsecutive_cases r d s t ha
    · exact .completed hf hc hs hb hl hp
    · exact .continued hf hn hc hs hb hl
  · exact .ignored hf hr

/-- Everything an instruction can do when it answers a next state. -/
theorem effect_of_exec {i : Instr} {s t : State} (h : exec i s = .next t) : Effect i s t := by
  cases hf : i.frame with
  | some f =>
    rw [exec_frame i f s hf, whenReady] at h
    cases hr : s.session.rxReady with
    | false => rw [hr] at h; cases h; exact .held hf hr
    | true => rw [hr] at h; exact effect_of_receiveFrame hf hr h
  | none =>
    cases i with
    | encodeReq m p e =>
      rw [exec, execEncodeReq] at h
      split at h
      · cases h; exact .notEncoded rfl
      · next hq => cases h; exact .requested rfl hq
    | expire =>
      rw [exec, execExpire] at h
      split at h
      · next ha => cases h; exact .aborted (by decide) (rxReady_of_deadlineArmed ha)
      · next ha => cases h; exact .nothing (.inl ⟨rfl, eq_false_of_ne_true ha⟩)
    | clear => cases h; exact .cleared (.inl rfl)
    | reset => cases h; exact .cleared (.inr rfl)
    | evtRsvd5 => cases h; exact .nothing (.inr (.inl rfl))
    | evtRsvd6 => cases h; exact .nothing (.inr (.inr (.inl rfl)))
    | evtRsvd7 => cases h; exact .nothing (.inr (.inr (.inr rfl)))
    | classify d => rw [CodecUnit.exec_classify] at h; cases h; exact .shown rfl _
    | encodeFc => cases h; exact .shown rfl _
    | fcCts => cases h; exact .shown rfl _
    | req m p e => rw [CodecUnit.exec_req] at h; cases h; exact .shown rfl _
    | rxSf | rxSfLenRsvd | rxFf | rxCf | rxFc | rxPciRsvd47 | rxPciRsvd8F | rxEmpty | rxRtr | rxHold | rx => cases hf

end Sys2Proof.Effects
end

section
/-! The codec unit's rows completed (40_codec.md): CLASSIFY case by case (R91 to R97), the flow-control frame (R98, R100, R115) and the request (R67, R90). -/

open Sys2Proof.Machine Sys2Proof.Laws Sys2Proof.Encoding Sys2Proof.CodecUnit

namespace Sys2Proof.CodecRows

/-! ### Frames too short for their type (R70; D6) -/

theorem classifySf_short (len : Nibble) (rest : List Byte) (hl : len.toNat ≤ 7) (h : rest.length < len.toNat) :
    classifySf len rest = .error .frameTooShort := by
  rw [classifySf, if_neg (Nat.not_lt.mpr hl), if_pos h]

theorem classifyFf_short (high : Nibble) (rest : List Byte) (h : rest.length < 7) : classifyFf high rest = .error .frameTooShort := by
  cases rest with
  | nil => rfl
  | cons low d => exact if_pos (Nat.lt_of_succ_lt_succ h)

theorem classifyCf_short (sn : Nibble) (rest : List Byte) (h : rest.length < 7) : classifyCf sn rest = .error .frameTooShort := if_pos h

theorem classifyFc_short (status : Nibble) (rest : List Byte) (h : rest.length < 2) : classifyFc status rest = .error .frameTooShort := by
  match rest, h with
  | [], _  => rfl
  | [_], _ => rfl

/-! ### What CLASSIFY shows -/

theorem classifyShown_of_error {data : List Byte} {c : Cause} (h : classify data = .error c) : classifyShown data = .failed c := by
  rw [classifyShown, h]

theorem classifyShown_of_ok {data : List Byte} {v : IsoTpFrame} (h : classify data = .ok v) : classifyShown data = .variant v := by
  rw [classifyShown, h]

/-! ### The flow-control frame -/

theorem pciFc_eq_or (status : Nibble) : pciFc status = 0x30#8 ||| status.setWidth 8 := by revert status; decide

/-- With no table entry an 11-bit responder is answered on its identifier less 8 (GK2). -/
theorem toNat_fcId_default (cfg : Cfg) (src : Sender) (hc : cfg.fcIds = []) (he : src.extended = false) (hlo : 8 ≤ src.id.toNat)
    (hhi : src.id.toNat < 2 ^ 11) : (fcId cfg src).toNat = src.id.toNat - 8 := by
  have hid : fcId cfg src = narrow (src.id - 8#29) := by simp [fcId, hc, FcIdEntry.lookup, defaultFcId, he]
  rw [hid, narrow_toNat, BitVec.toNat_sub, BitVec.toNat_ofNat]
  omega

/-! ### Requests longer than a frame -/

theorem encodeRequest_tooLong (cfg : Cfg) (mode : Byte) (pid : Option Byte) (extra : List Byte)
    (h : 8 < (requestPayload mode pid extra).length) : encodeRequest cfg mode pid extra = .error .encodeError := if_pos h

/-! ### The obligations -/

/-- Settles O13: what is shown is the classification, which the high nibble and the length decide. -/
theorem classifyCompletes : Obligations.ClassifyCompletes := by
  intro s data _
  refine ⟨classifyShown data, exec_classify data s, ?empty, ?nonempty⟩
  case empty => rintro rfl; exact classifyShown_of_error rfl
  case nonempty =>
    rintro b rest rfl
    refine ⟨fun h hl => ?_, fun h hl hs => ?_, fun h hl hs => ?_, fun h hs => ?_, fun low d h hr hd => ?_, fun h hs => ?_,
      fun h hs => ?_, fun h hs => ?_, fun bs sep more h hr => ?_, fun h => ?_⟩
    · exact classifyShown_of_error ((classify_of_hiNibble_zero rest h).trans (classifySf_above_seven _ rest hl))
    · exact classifyShown_of_error ((classify_of_hiNibble_zero rest h).trans (classifySf_short _ rest hl hs))
    · exact classifyShown_of_ok ((classify_of_hiNibble_zero rest h).trans (classifySf_fits _ rest hl hs))
    · exact classifyShown_of_error ((classify_of_hiNibble_one rest h).trans (classifyFf_short _ rest hs))
    · subst hr
      exact classifyShown_of_ok ((classify_of_hiNibble_one _ h).trans (classifyFf_eight_bytes _ low d hd))
    · exact classifyShown_of_error ((classify_of_hiNibble_two rest h).trans (classifyCf_short _ rest hs))
    · exact classifyShown_of_ok ((classify_of_hiNibble_two rest h).trans (classifyCf_eight_bytes _ rest hs))
    · exact classifyShown_of_error ((classify_of_hiNibble_three rest h).trans (classifyFc_short _ rest hs))
    · subst hr
      exact classifyShown_of_ok ((classify_of_hiNibble_three _ h).trans (classifyFc_three_bytes _ bs sep more))
    · exact classifyShown_of_error (classify_reserved b rest h)

/-- Settles O14: byte 0 is the flow-control PCI byte, and the filler lies after the three bytes that are read. -/
theorem flowControlRoundTrip : Obligations.FlowControlRoundTrip := by
  intro filler st bs sep
  rw [encodeFcData, classify_pciFc]
  exact classifyFc_three_bytes st bs sep _

/-- Settles O15: the shown bytes are `encodeFcData`, its byte 0 being `0x30` with the status. -/
theorem encodeFcCompletes : Obligations.EncodeFcCompletes := by
  intro s st bs sep
  rw [exec_encodeFc, ← pciFc_eq_or]
  rfl

/-- Settles O16: the shown frame is `ctsFrame`, its identifier `fcId`. -/
theorem fcCtsCompletes : Obligations.FcCtsCompletes := by
  intro s src
  refine ⟨fcId s.cfg src, exec_fcCts src s, rfl, fun hc he hlo hhi => ?_⟩
  exact toNat_fcId_default s.cfg src hc he (by omega) (by omega)

/-- Settles O18: the encoding decides the output, and emitting it leaves the session alone. -/
theorem encodeReqCompletes : Obligations.EncodeReqCompletes := by
  intro s mode pid extra
  rw [← requestPayload_eq_append, exec_encodeReq, requestOutput]
  refine ⟨fun h => ?fits, fun h => ?tooLong⟩
  case fits =>
    rw [encodeRequest_fits s.cfg mode pid extra h]
    exact ⟨_, rfl, rfl, rfl, rfl, rfl⟩
  case tooLong =>
    rw [encodeRequest_tooLong s.cfg mode pid extra h]
    rfl

/-- Settles O19: the same encoding, shown instead of emitted. -/
theorem reqCompletes : Obligations.ReqCompletes := by
  intro s mode pid extra
  rw [← requestPayload_eq_append, exec_req, requestShown]
  refine ⟨fun h => ?fits, fun h => ?tooLong⟩
  case fits =>
    rw [encodeRequest_fits s.cfg mode pid extra h]
    rfl
  case tooLong =>
    rw [encodeRequest_tooLong s.cfg mode pid extra h]
    rfl

end Sys2Proof.CodecRows
end

section
/-! The RX rows (41_reassembler.md): each row while the block is ready and in a terminal state (R110, R111), the classified frames (R114 to R120), and the obligations that give a row's whole next state. -/

open Sys2Proof.Machine Sys2Proof.Laws Sys2Proof.Encoding Sys2Proof.Reassembler Sys2Proof.CodecRows Sys2Proof.Buffer

namespace Sys2Proof.RxRows

/-! ### The first test of R110 -/

theorem whenReady_of_ready {f : CanFrame} {s : State} {a : Answer} (h : s.session.rxReady = true) : whenReady f s a = a := if_pos h

theorem whenReady_of_terminal {f : CanFrame} {s : State} {a : Answer} (h : s.session.rxReady = false) :
    whenReady f s a = holdFrame f s := if_neg (ne_true_of_eq_false h)

section
variable {s : State} (hr : s.session.rxReady = true)
include hr

theorem exec_rxSf_of_ready (src : Sender) (len : BitVec 3) (rest : List Byte) :
    exec (.rxSf src len rest) s = receiveClassified src (classifySf (0#1 ++ len) rest) s := whenReady_of_ready hr

theorem exec_rxFc_of_ready (src : Sender) (status : Nibble) (rest : List Byte) :
    exec (.rxFc src status rest) s = receiveClassified src (classifyFc status rest) s := whenReady_of_ready hr

theorem exec_rxRtr_of_ready (src : Sender) (data : List Byte) : exec (.rxRtr src data) s = ignoreEvent s := whenReady_of_ready hr

end

/-! ### Classified frames -/

theorem toNat_single_length (len : BitVec 3) : (0#1 ++ len : Nibble).toNat = len.toNat := by revert len; decide

/-- The Consecutive row's classification: too short, or a Consecutive frame with the row's number (R94). -/
theorem classifyCf_cases (sn : Nibble) (rest : List Byte) :
    classifyCf sn rest = .error .frameTooShort ∨ ∃ d, classifyCf sn rest = .ok (.consecutive sn d) := by
  rw [classifyCf]
  split
  · exact .inl rfl
  · exact .inr ⟨_, rfl⟩

/-- A First frame of fewer than 6 bytes aborts before anything is transmitted (R116; D8). -/
theorem receiveFirst_overflow (src : Sender) {total : Count} (d : List Byte) (s : State) (h : total.toNat < 6) :
    receiveFirst src total d s = raise .overflow s := if_pos h

/-- A Consecutive frame with no session is ignored (R119). -/
theorem receiveConsecutive_idle (sn : Nibble) (d : List Byte) {s : State} (hs : s.session = .idle) :
    receiveConsecutive sn d s = ignoreEvent s := by
  rw [receiveConsecutive, hs]

/-- A Consecutive frame with the expected sequence number is accepted (R118). -/
theorem receiveConsecutive_match (d : List Byte) {s : State} {r : Receiving} (hs : s.session = .awaitingConsecutive r) :
    receiveConsecutive r.nextSequence d s = acceptConsecutive r d s := by
  rw [receiveConsecutive, hs]
  exact if_neg (not_not_intro rfl)

/-- A Consecutive frame has the bytes that are appended (R118). -/
theorem length_take_appendCount (r : Receiving) {d : List Byte} (hd : d.length = 7) :
    (d.take (appendCount r)).length = appendCount r := by
  rw [List.length_take, hd]
  exact Nat.min_eq_left (Nat.min_le_left 7 _)

/-- A Single frame that has its bytes is delivered (R114). -/
theorem exec_rxSf_delivers (src : Sender) {len : BitVec 3} {rest : List Byte} {s : State} (hr : s.session.rxReady = true)
    (hl : len.toNat ≤ rest.length) :
    exec (.rxSf src len rest) s = .next (emit (.deliver src.id src.extended (rest.take len.toNat)) s) := by
  have hc : classifySf (0#1 ++ len) rest = .ok (.single (0#1 ++ len) (rest.take len.toNat)) := by
    rw [← toNat_single_length len] at hl ⊢
    exact classifySf_fits _ rest (toNat_single_length len ▸ Nat.le_of_lt_succ len.isLt) hl
  rw [exec_rxSf_of_ready hr, hc]
  rfl

/-- A flow-control frame of at least 3 data bytes is ignored (R120). -/
theorem exec_rxFc_ignored (src : Sender) (status : Nibble) {rest : List Byte} {s : State} (hr : s.session.rxReady = true)
    (hl : 2 ≤ rest.length) : exec (.rxFc src status rest) s = .next (quiet s) := by
  match rest, hl with
  | bs :: sep :: more, _ => rw [exec_rxFc_of_ready hr, classifyFc_three_bytes]; rfl

/-- A Consecutive frame in `Idle` is ignored (R119; D9). -/
theorem exec_rxCf_idle (src : Sender) (sn : Nibble) {rest : List Byte} {s : State} (hs : s.session = .idle) (hl : 7 ≤ rest.length) :
    exec (.rxCf src sn rest) s = .next (quiet s) := by
  rw [exec_rxCf_of_ready src sn rest (by rw [hs]; rfl), classifyCf, if_neg (Nat.not_lt.mpr hl)]
  exact receiveConsecutive_idle sn _ hs

/-- The row `RX.CF` with 8 data bytes and the expected sequence number (R118). -/
theorem exec_rxCf_match (src : Sender) {d : List Byte} (hd : d.length = 7) {s : State} {r : Receiving}
    (hs : s.session = .awaitingConsecutive r) : exec (.rxCf src r.nextSequence d) s = acceptConsecutive r d s := by
  rw [exec_rxCf_of_ready src _ d (rxReady_of_awaiting hs), classifyCf_eight_bytes _ d hd]
  exact receiveConsecutive_match d hs

/-- Everything the row `RX.FF` does while the block is ready: it aborts, or it opens a session with six bytes (R115, R116). -/
theorem exec_rxFf_cases {src : Sender} {high : Nibble} {rest : List Byte} {s t : State} (hr : s.session.rxReady = true)
    (h : exec (.rxFf src high rest) s = .next t) :
    (∃ c, t = { emit (.error c) s with session := .aborted c }) ∨
    ∃ total d, d.length = 6 ∧
      t = { emit (.tx (ctsFrame s.cfg src)) s with session := openedSession src total (Memory.writeBytes [] 0 d) s } := by
  rw [exec_rxFf_of_ready src high rest hr] at h
  obtain hc | ⟨total, d, hc⟩ := classifyFf_cases high rest
  · rw [hc] at h; cases h; exact .inl ⟨_, rfl⟩
  · have hd := classify_first (pciFf high :: rest) total d ((classify_pciFf high rest).trans hc)
    rw [hc, receiveClassified] at h
    obtain ht | ht := Nat.lt_or_ge total.toNat 6
    · rw [receiveFirst_overflow src d s ht] at h; cases h; exact .inl ⟨_, rfl⟩
    · rw [receiveFirst_opens src total d s ht hd] at h; cases h; exact .inr ⟨total, d, hd, rfl⟩

/-- Everything the row `RX.CF` does in a session: it aborts, or its frame is accepted (R117, R118). -/
theorem exec_rxCf_cases {src : Sender} {sn : Nibble} {rest : List Byte} {s t : State} {r : Receiving}
    (hs : s.session = .awaitingConsecutive r) (h : exec (.rxCf src sn rest) s = .next t) :
    (∃ c, t = { emit (.error c) s with session := .aborted c }) ∨ ∃ d, acceptConsecutive r d s = .next t := by
  rw [exec_rxCf_of_ready src sn rest (rxReady_of_awaiting hs)] at h
  obtain hc | ⟨d, hc⟩ := classifyCf_cases sn rest
  · rw [hc] at h; cases h; exact .inl ⟨_, rfl⟩
  · rw [hc, receiveClassified] at h
    by_cases hn : sn = r.nextSequence
    · subst hn
      exact .inr ⟨d, receiveConsecutive_match d hs ▸ h⟩
    · rw [receiveConsecutive_mismatch d hs hn] at h; cases h; exact .inl ⟨_, rfl⟩

theorem ofNat_succ_mod (sn : Nibble) : BitVec.ofNat 4 ((sn.toNat + 1) % 16) = sn + 1#4 := by revert sn; decide

/-! ### The obligations -/

/-- Settles O21: a Single frame that has its bytes classifies as one, and is delivered. -/
theorem singleFrameIsDelivered : Obligations.SingleFrameIsDelivered := by
  intro s src len rest hr hl
  exact exec_rxSf_delivers src hr hl

/-- Settles O22: the opened session's buffer is the six bytes written into an empty one. -/
theorem firstFrameOpensASession : Obligations.FirstFrameOpensASession := by
  intro s src high low d hr hd hl
  exact ⟨totalLength high low, Memory.writeBytes [] 0 d, ctsFrame s.cfg src, totalLength_toNat high low, read_writeBytes_empty d,
    rfl, rfl, rfl, rfl, exec_rxFf_opens src high low d hr hd hl⟩

/-- Settles O23: the length is checked before the session is opened. -/
theorem firstFrameBelowSixOverflows : Obligations.FirstFrameBelowSixOverflows := by
  intro s src high low d hr hd hl
  rw [exec_rxFf_of_ready src high _ hr, classifyFf_eight_bytes high low d hd]
  rw [← totalLength_toNat] at hl
  exact receiveFirst_overflow src d s hl

/-- Settles O26: the appended bytes are those of one `MemWrite` at `bufLen`, and the payload is read back from it. -/
theorem consecutiveFrameIsAccepted : Obligations.ConsecutiveFrameIsAccepted := by
  intro s r src d hs hi hd
  obtain ⟨buf, hb, -, hcomplete, hcontinue⟩ := acceptConsecutive_next r d s hi hd
  have hlen := length_take_appendCount r hd
  rw [exec_rxCf_match src hd hs, ofNat_succ_mod]
  refine ⟨appendCount r, buf, rfl, fun a => ?buffer, fun hl => ?continues, fun hl => ?completes⟩
  case buffer =>
    rw [memWrite_some _ _ _ _ hb, read_writeBytes, hlen, appendAddr]
    split
    · exact List.getElem?_take_of_lt (by omega)
    · rfl
  case continues => exact hcontinue hl.ne
  case completes =>
    obtain ⟨p, hp, hread, hx⟩ := hcomplete hl
    refine ⟨p, hp, fun a ha => ?_, hx.trans ?_⟩
    · obtain ⟨-, -, hbytes⟩ := memRead_some hread
      rw [← hbytes a ha, Nat.zero_add]
    · rw [completedSession, BitVec.ofNat_toNat, BitVec.setWidth_eq]
      rfl

/-- Settles O27: neither outcome of the Consecutive row's classification reads the sender. -/
theorem consecutiveSenderIsNotCompared : Obligations.ConsecutiveSenderIsNotCompared := by
  intro s src src' sn rest hr
  rw [exec_rxCf_of_ready src sn rest hr, exec_rxCf_of_ready src' sn rest hr]
  obtain h | ⟨d, h⟩ := classifyCf_cases sn rest
  · rw [h]; rfl
  · rw [h]; rfl

/-- Settles O28: each of the three frames ends in `ignoreEvent`. -/
theorem ignoredFramesAreSilent : Obligations.IgnoredFramesAreSilent := by
  intro s src
  refine ⟨fun sn d hs hd => ?consecutive, fun st bs sep more hr => ?flowControl, fun data hr => ?remote⟩
  case consecutive => exact exec_rxCf_idle src sn hs hd.ge
  case flowControl => exact exec_rxFc_ignored src st hr (Nat.le_add_left 2 more.length)
  case remote => exact exec_rxRtr_of_ready hr src data

/-- Settles O29: the four rows raise their cause once the block is ready. -/
theorem classificationErrorsAbort : Obligations.ClassificationErrorsAbort := by
  intro s src hr
  exact ⟨fun _ _ => whenReady_of_ready hr, fun _ _ => whenReady_of_ready hr, fun _ _ => whenReady_of_ready hr, whenReady_of_ready hr⟩

/-- Settles O30: the classification fails before its fields are used. -/
theorem shortFramesAbort : Obligations.ShortFramesAbort := by
  intro s src rest hr
  refine ⟨fun len h => ?single, fun high h => ?first, fun sn h => ?consecutive, fun st h => ?flowControl⟩
  case single =>
    rw [← toNat_single_length len] at h
    rw [exec_rxSf_of_ready hr, classifySf_short _ rest (toNat_single_length len ▸ Nat.le_of_lt_succ len.isLt) h]
    rfl
  case first => rw [exec_rxFf_of_ready src high rest hr, classifyFf_short high rest h]; rfl
  case consecutive => rw [exec_rxCf_of_ready src sn rest hr, classifyCf_short sn rest h]; rfl
  case flowControl => rw [exec_rxFc_of_ready hr, classifyFc_short st rest h]; rfl

/-- Settles O33: every RX row takes the first test of R110. -/
theorem terminalStateHoldsEveryFrame : Obligations.TerminalStateHoldsEveryFrame := by
  intro i f s hf hr
  rw [exec_frame i f s hf, whenReady_of_terminal hr]
  rfl

end Sys2Proof.RxRows
end

section
/-! The invariant of R31 (10_state.md section 4): the sessions a step can leave meet it, every well-formed instruction completes, and every step keeps it. -/

open Sys2Proof.Machine Sys2Proof.Laws Sys2Proof.Images Sys2Proof.Buffer Sys2Proof.Dispatch Sys2Proof.Effects Sys2Proof.Reassembler
  Sys2Proof.RxRows

namespace Sys2Proof.Invariant

/-! ### Sessions -/

/-- A count that fits its register reads back (R21, R22). -/
theorem toNat_newLen (r : Receiving) :
    (BitVec.ofNat 12 (r.bufLen.toNat + appendCount r)).toNat = r.bufLen.toNat + appendCount r := by
  rw [BitVec.toNat_ofNat, Nat.mod_eq_of_lt (newLen_lt r)]

/-- The session a First frame opens, with `k = 0` (R115). -/
theorem inv_openedSession {src : Sender} {total : Count} {d : List Byte} (s : State) (hsrc : src.wf = true) (hd : d.length = 6)
    (ht : 6 ≤ total.toNat) : (openedSession src total (Memory.writeBytes [] 0 d) s).Inv := by
  refine ⟨?buffer, ⟨0, ?len, rfl, Nat.le_refl 6, ht, fun h => ⟨(congrArg BitVec.toNat h).symm, rfl⟩⟩, hsrc⟩
  case buffer =>
    have h := addresses_writeBytes [] 0 d rfl
    rwa [hd] at h
  case len => exact (Nat.min_eq_right ht).symm

/-- The bytes an accepted Consecutive frame leaves in the buffer are dense (R22, R118). -/
theorem addresses_append {r : Receiving} {d : List Byte} {buf : Memory} (hi : r.Inv) (hd : d.length = 7)
    (hb : memWrite r.buf (appendAddr r) (d.take (appendCount r)) = some buf) :
    buf.map Prod.fst = List.range (r.bufLen.toNat + appendCount r) := by
  obtain ⟨buf', hb', haddr, -⟩ := acceptConsecutive_next r d State.reset hi hd
  rw [hb, Option.some.injEq] at hb'
  exact hb' ▸ haddr

/-- Where the declared length is not reached, all 7 bytes were appended and more are to come (R118). -/
theorem appendCount_of_continues {r : Receiving} (hle : r.bufLen.toNat ≤ r.expectedLength.toNat)
    (hl : r.bufLen.toNat + appendCount r ≠ r.expectedLength.toNat) :
    appendCount r = 7 ∧ r.bufLen.toNat + 7 < r.expectedLength.toNat := by
  simp only [appendCount, Config.cfData] at hl ⊢
  omega

/-- The session that goes on, with `k + 1` (R118). -/
theorem inv_continuedSession {r : Receiving} {buf : Memory} (s : State) (hi : r.Inv)
    (haddr : buf.map Prod.fst = List.range (r.bufLen.toNat + appendCount r))
    (hl : r.bufLen.toNat + appendCount r ≠ r.expectedLength.toNat) :
    (continuedSession r buf (r.bufLen.toNat + appendCount r) s).Inv := by
  obtain ⟨k, hlen, hseq, h6, hle, -⟩ := hi.counts
  obtain ⟨hn, hlt⟩ := appendCount_of_continues hle hl
  have hnew := toNat_newLen r
  refine ⟨?buffer, ⟨k + 1, ?len, ?seq, ?six, ?le, ?ne⟩, hi.peer⟩
  case buffer => rw [bufferHolds, hnew, haddr]
  case len => change _ = min r.expectedLength.toNat _; rw [hnew]; omega
  case seq =>
    change r.nextSequence + 1#4 = BitVec.ofNat 4 (1 + k + 1)
    rw [hseq]
    exact (BitVec.ofNat_add (1 + k) 1).symm
  case six => rw [hnew]; omega
  case le => change _ ≤ r.expectedLength.toNat; rw [hnew]; omega
  case ne => exact fun h => absurd (hnew.symm.trans (congrArg BitVec.toNat h)) hl

/-- The completed session (R27, R118). -/
theorem inv_completedSession {r : Receiving} {buf : Memory} (hi : r.Inv)
    (haddr : buf.map Prod.fst = List.range (r.bufLen.toNat + appendCount r))
    (hl : r.bufLen.toNat + appendCount r = r.expectedLength.toNat) :
    (completedSession r buf (r.bufLen.toNat + appendCount r)).Inv := by
  obtain ⟨k, -, -, h6, hle, -⟩ := hi.counts
  have hnew := toNat_newLen r
  refine ⟨?buffer, BitVec.eq_of_toNat_eq (hnew.trans hl), h6.trans hle, hi.peer⟩
  case buffer => rw [bufferHolds, hnew, haddr]

/-- A payload read for delivery has the declared length (R44, R122). -/
theorem length_delivered {r : Receiving} {buf : Memory} {n : Nat} {p : List Byte} (hp : memRead buf n 0 r.expectedLength.toNat = some p) :
    p.length ≤ Config.maxLen := by
  obtain ⟨-, hlen, -⟩ := memRead_some hp
  exact hlen ▸ Nat.le_of_lt_succ r.expectedLength.isLt

/-! ### Every instruction completes -/

/-- A received frame completes in every session that meets its invariant (R44, R52, R191). -/
theorem receiveFrame_completes (f : CanFrame) {s : State} (hi : s.session.Inv) : ∃ t, receiveFrame f s = .next t := by
  rw [receiveFrame]
  split
  · exact ⟨_, rfl⟩
  · cases hc : classify f.data with
    | error e => exact ⟨_, rfl⟩
    | ok v =>
      cases v with
      | single l d => exact ⟨_, rfl⟩
      | flowControl st bs sep => exact ⟨_, rfl⟩
      | first total d =>
        rw [receiveClassified]
        obtain ht | ht := Nat.lt_or_ge total.toNat 6
        · exact ⟨_, receiveFirst_overflow _ d s ht⟩
        · exact ⟨_, receiveFirst_opens _ total d s ht (classify_first _ _ _ hc)⟩
      | consecutive sn d =>
        rw [receiveClassified]
        cases hs : s.session with
        | idle => exact ⟨_, receiveConsecutive_idle sn d hs⟩
        | complete c => rw [receiveConsecutive, hs]; exact ⟨_, rfl⟩
        | aborted e => rw [receiveConsecutive, hs]; exact ⟨_, rfl⟩
        | awaitingConsecutive r =>
          by_cases hn : sn = r.nextSequence
          · subst hn
            rw [receiveConsecutive_match d hs]
            rw [hs] at hi
            obtain ⟨buf, -, -, hcomplete, hcontinue⟩ := acceptConsecutive_next r d s hi (classify_consecutive _ _ _ hc)
            by_cases hl : r.bufLen.toNat + appendCount r = r.expectedLength.toNat
            · obtain ⟨p, -, -, hx⟩ := hcomplete hl
              exact ⟨_, hx⟩
            · exact ⟨_, hcontinue hl⟩
          · exact ⟨_, receiveConsecutive_mismatch d hs hn⟩

/-- Every instruction completes in every session that meets its invariant. -/
theorem exec_completes (i : Instr) {s : State} (hi : s.session.Inv) : ∃ t, exec i s = .next t := by
  cases hf : i.frame with
  | some f =>
    rw [exec_frame i f s hf]
    cases hr : s.session.rxReady with
    | true => rw [whenReady_of_ready hr]; exact receiveFrame_completes f hi
    | false => rw [whenReady_of_terminal hr]; exact ⟨_, rfl⟩
  | none =>
    cases i with
    | encodeReq m p e => exact ⟨_, CodecUnit.exec_encodeReq m p e s⟩
    | req m p e => exact ⟨_, CodecUnit.exec_req m p e s⟩
    | classify data => exact ⟨_, CodecUnit.exec_classify data s⟩
    | expire =>
      rw [exec, execExpire]
      split
      · exact ⟨_, rfl⟩
      · exact ⟨_, rfl⟩
    | clear | reset | evtRsvd5 | evtRsvd6 | evtRsvd7 | encodeFc | fcCts => exact ⟨_, rfl⟩
    | rxSf | rxSfLenRsvd | rxFf | rxCf | rxFc | rxPciRsvd47 | rxPciRsvd8F | rxEmpty | rxRtr | rxHold | rx => cases hf

/-! ### Every outcome keeps the invariant -/

/-- A `CanFrame`'s identifier has the width its flag selects (R60). -/
theorem idFits_of_wf {f : CanFrame} (h : f.wf = true) : idFits f.id f.extended = true := (Bool.and_eq_true_iff.mp h).1

theorem receiving_inv {s : State} {r : Receiving} (hi : s.Inv) (hs : s.session = .awaitingConsecutive r) : r.Inv := by
  have h := hi.session
  rwa [hs] at h

/-- The invariant after a step that leaves the adapter's queues alone. -/
theorem inv_of_queues {s t : State} (hi : s.Inv) (hs : t.session.Inv) (ho : t.out.Inv) (hc : t.cfg = s.cfg) (hr : t.rxQueue = s.rxQueue)
    (ht : t.txQueue = s.txQueue) : t.Inv :=
  session_step_inv s t hi hs ho hc (fun _ h => .inl (hr ▸ h)) (fun _ h => .inl (ht ▸ h))

/-- The invariant after a step that hands one frame to the adapter. -/
theorem inv_of_tx {s t : State} {f : CanFrame} (hi : s.Inv) (hs : t.session.Inv) (hf : CanFrame.transmittable f) (ho : t.out = .tx f)
    (hc : t.cfg = s.cfg) (hr : t.rxQueue = s.rxQueue) (ht : t.txQueue = s.txQueue ++ [f]) : t.Inv := by
  refine session_step_inv s t hi hs (ho ▸ hf) hc (fun _ h => .inl (hr ▸ h)) fun g hg => ?_
  rw [ht, List.mem_append, List.mem_singleton] at hg
  exact hg.imp_right fun h : g = f => h ▸ hf

/-- Every outcome of a well-formed instruction keeps the invariant (R31). -/
theorem effect_keeps_inv {i : Instr} {s t : State} (hw : i.wf = true) (hi : s.Inv) (h : Effect i s t) : t.Inv := by
  cases h with
  | @held f hf =>
    refine session_step_inv s _ hi hi.session trivial rfl (fun g hg => ?_) fun _ hg => .inl hg
    rw [List.mem_append, List.mem_singleton] at hg
    exact hg.imp_right fun h : g = f => h ▸ frame_wf i hw f hf
  | ignored => exact inv_of_queues hi hi.session trivial rfl rfl rfl
  | delivered hf _ hc =>
    have hlen := (classify_single _ _ _ hc).trans (show 7 ≤ Config.maxLen by decide)
    exact inv_of_queues hi hi.session ⟨idFits_of_wf (frame_wf i hw _ hf), hlen⟩ rfl rfl rfl
  | @opened f total d hf _ _ hc ht =>
    have hsrc : f.sender.wf = true := idFits_of_wf (frame_wf i hw f hf)
    exact inv_of_tx hi (inv_openedSession s hsrc (classify_first _ _ _ hc) ht) (ctsFrame_ok s.cfg f.sender) rfl rfl rfl rfl
  | continued _ _ hc hs hb hl =>
    have hr := receiving_inv hi hs
    have haddr := addresses_append hr (classify_consecutive _ _ _ hc) hb
    exact inv_of_queues hi (inv_continuedSession s hr haddr hl) trivial rfl rfl rfl
  | completed _ hc hs hb hl hp =>
    have hr := receiving_inv hi hs
    have haddr := addresses_append hr (classify_consecutive _ _ _ hc) hb
    exact inv_of_queues hi (inv_completedSession hr haddr hl) ⟨hr.peer, length_delivered hp⟩ rfl rfl rfl
  | aborted hc => exact inv_of_queues hi hc trivial rfl rfl rfl
  | @requested m p e f _ hq => exact inv_of_tx hi hi.session (request_ok s.cfg hi.cfg m p e f hq) rfl rfl rfl rfl
  | notEncoded => exact inv_of_queues hi hi.session trivial rfl rfl rfl
  | shown => exact inv_of_queues hi hi.session trivial rfl rfl rfl
  | nothing => exact inv_of_queues hi hi.session trivial rfl rfl rfl
  | cleared => exact inv_of_queues hi trivial trivial rfl rfl rfl

theorem exec_keeps_inv {i : Instr} {s t : State} (hw : i.wf = true) (hi : s.Inv) (h : exec i s = .next t) : t.Inv :=
  effect_keeps_inv hw hi (effect_of_exec h)

/-! ### The obligations -/

/-- Settles O58: an instruction completes under the session's invariant alone, and each of its outcomes keeps the machine's. -/
theorem everyInstructionCompletes : Obligations.EveryInstructionCompletes := by
  intro i s hw hi
  obtain ⟨t, h⟩ := exec_completes i hi.session
  exact ⟨t, h, exec_keeps_inv hw hi h⟩

/-- Settles O57: the event a step presents is well formed, decoded from a canonical image or held by the adapter; without one only the adapter's queue of taken frames changes. -/
theorem stepKeepsTheInvariant : Obligations.StepKeepsTheInvariant := by
  intro s t hi h
  cases hs : s.inputs with
  | cons img later =>
    cases hd : decode img with
    | error r => rw [step_of_decode_error hs hd] at h; cases h
    | ok i =>
      rw [step_scripted hs hd] at h
      have hi' : State.Inv { s with inputs := later, tick := s.tick + 1 } := ⟨hi.session, hi.out, hi.cfg, hi.held, hi.taken⟩
      exact exec_keeps_inv (canonical_of_decode hd).1 hi' h
  | nil =>
    have silent : s.rxQueue = [] ∨ s.session.rxReady = false → t.Inv := fun hq => by
      rw [step_transmits hs hq] at h
      cases h
      exact ⟨hi.session, trivial, hi.cfg, hi.held, fun f hf => hi.taken f (List.mem_of_mem_tail hf)⟩
    cases hq : s.rxQueue with
    | nil => exact silent (.inl hq)
    | cons f fs =>
      cases hr : s.session.rxReady with
      | false => exact silent (.inr hr)
      | true =>
        rw [step_presents hs hq hr] at h
        have hheld : ∀ g ∈ f :: fs, g.wf = true := hq ▸ hi.held
        have hi' : State.Inv { s with rxQueue := fs, tick := s.tick + 1 } :=
          ⟨hi.session, hi.out, hi.cfg, fun g hg => hheld g (List.mem_cons_of_mem f hg), hi.taken⟩
        exact exec_keeps_inv (i := .rx f) (hheld f List.mem_cons_self) hi' h

/-- Settles O56: `Idle`, no output, the default identifier, empty queues. -/
theorem resetMeetsTheInvariant : Obligations.ResetMeetsTheInvariant :=
  ⟨trivial, trivial, rfl, fun _ h => (List.not_mem_nil h).elim, fun _ h => (List.not_mem_nil h).elim⟩

end Sys2Proof.Invariant
end

section
/-! Reassembly over a run (R41 (b), R122, R125): each Consecutive frame appends its bytes to those already held, and the last one delivers them. -/

open Sys2Proof.Machine Sys2Proof.Laws Sys2Proof.Buffer Sys2Proof.Reassembler Sys2Proof.RxRows Sys2Proof.Invariant

namespace Sys2Proof.Reassembly

/-- The session holds exactly these bytes of a payload of the declared length (R22). -/
structure Holds (r : Receiving) (bytes : List Byte) : Prop where
  buf  : r.buf = Memory.writeBytes [] 0 bytes
  len  : r.bufLen.toNat = bytes.length
  fits : bytes.length ≤ r.expectedLength.toNat

/-- The appended bytes lie behind the held ones (R43, R118). -/
theorem memWrite_append {r : Receiving} {bytes d : List Byte} (h : Holds r bytes) (hd : d.length = 7) :
    memWrite r.buf (appendAddr r) (d.take (appendCount r)) = some (Memory.writeBytes [] 0 (bytes ++ d.take (appendCount r))) := by
  have hlen := length_take_appendCount r hd
  have hlt := newLen_lt r
  rw [memWrite_of_le _ _ _ (by rw [hlen, appendAddr]; omega), writeBytes_append, ← h.buf, appendAddr, h.len, Nat.zero_add]

/-- A frame that does not complete the session leaves it holding all of the frame's bytes too, under the same declaration and peer. -/
theorem acceptConsecutive_continues {r : Receiving} {bytes d : List Byte} (s : State) (h : Holds r bytes) (hd : d.length = 7)
    (hl : bytes.length + 7 < r.expectedLength.toNat) :
    ∃ t r', acceptConsecutive r d s = .next t ∧ t.session = .awaitingConsecutive r' ∧ Holds r' (bytes ++ d) ∧
      r'.nextSequence = r.nextSequence + 1#4 ∧ r'.expectedLength = r.expectedLength ∧ r'.peerId = r.peerId ∧ r'.peerExt = r.peerExt := by
  have hn : appendCount r = 7 := Nat.min_eq_left (by change 7 ≤ _; rw [h.len]; omega)
  have hw := memWrite_append h hd
  rw [hn, List.take_of_length_le hd.le] at hw
  have hx : acceptConsecutive r d s =
      .next { quiet s with session := continuedSession r (Memory.writeBytes [] 0 (bytes ++ d)) (bytes.length + 7) s } := by
    rw [acceptConsecutive, hn, List.take_of_length_le hd.le, hw, h.len]
    exact if_neg hl.ne
  have hlen : (bytes ++ d).length = bytes.length + 7 := by rw [List.length_append, hd]
  have hlt : bytes.length + 7 < 2 ^ 12 := hl.trans r.expectedLength.isLt
  refine ⟨_, _, hx, rfl, ⟨rfl, ?_, hlen ▸ hl.le⟩, rfl, rfl, rfl, rfl⟩
  rw [BitVec.toNat_ofNat, Nat.mod_eq_of_lt hlt, hlen]

/-- A frame that reaches the declared length delivers the held bytes with its own, cut to that length, and holds them. -/
theorem acceptConsecutive_completes {r : Receiving} {bytes d : List Byte} (s : State) (h : Holds r bytes) (hd : d.length = 7)
    (hl : r.expectedLength.toNat ≤ bytes.length + 7) :
    ∃ t, acceptConsecutive r d s = .next t ∧
      t.out = .deliver r.peerId r.peerExt ((bytes ++ d).take r.expectedLength.toNat) ∧
      t.session.heldResult = some (r.peerId, r.peerExt, (bytes ++ d).take r.expectedLength.toNat) := by
  have hn : appendCount r = r.expectedLength.toNat - bytes.length := by
    rw [appendCount, h.len]
    exact Nat.min_eq_right (Nat.sub_le_iff_le_add'.mpr hl)
  have hsum : bytes.length + appendCount r = r.expectedLength.toNat := by rw [hn, Nat.add_sub_of_le h.fits]
  have hp : bytes ++ d.take (appendCount r) = (bytes ++ d).take r.expectedLength.toNat := by
    rw [List.take_append, hn, List.take_of_length_le h.fits]
  have hplen : ((bytes ++ d).take r.expectedLength.toNat).length = r.expectedLength.toNat := by
    rw [List.length_take, List.length_append, hd, Nat.min_eq_left hl]
  have hread := memRead_writeBytes_empty ((bytes ++ d).take r.expectedLength.toNat)
  rw [hplen] at hread
  have hw := memWrite_append h hd
  rw [hp] at hw
  refine ⟨{ emit (.deliver r.peerId r.peerExt ((bytes ++ d).take r.expectedLength.toNat)) s with
            session := completedSession r (Memory.writeBytes [] 0 ((bytes ++ d).take r.expectedLength.toNat)) r.expectedLength.toNat },
    ?_, rfl, ?_⟩
  · simp only [acceptConsecutive, hw, h.len, hsum, hread, if_true]
  · simp only [completedSession, Session.heldResult, BitVec.ofNat_toNat, BitVec.setWidth_eq, hread, Option.map_some]

/-- From a waiting session the frames still missing, in sequence, deliver the held bytes with theirs, cut to the declared length (R125). -/
theorem execAll_consecutiveFrom (cs : List (Sender × List Byte)) (s : State) (r : Receiving) (bytes : List Byte) (k : Nat)
    (hs : s.session = .awaitingConsecutive r) (h : Holds r bytes) (hk : r.nextSequence = BitVec.ofNat 4 k)
    (hcs : ∀ c ∈ cs, c.2.length = 7) (hcount : cs.length = max 1 ((r.expectedLength.toNat - bytes.length + 6) / 7)) :
    ∃ t, execAll (consecutiveFrom k cs) s = .next t ∧
      t.out = .deliver r.peerId r.peerExt ((bytes ++ cs.flatMap (·.2)).take r.expectedLength.toNat) ∧
      t.session.heldResult = some (r.peerId, r.peerExt, (bytes ++ cs.flatMap (·.2)).take r.expectedLength.toNat) := by
  induction cs generalizing s r bytes k with
  | nil => rw [List.length_nil] at hcount; omega
  | cons c cs ih =>
    have hd : c.2.length = 7 := hcs c List.mem_cons_self
    have hx : exec (.rxCf c.1 (BitVec.ofNat 4 k) c.2) s = acceptConsecutive r c.2 s := hk ▸ exec_rxCf_match c.1 hd hs
    rw [List.length_cons] at hcount
    rw [consecutiveFrom, execAll, hx, List.flatMap_cons]
    obtain hl | hl := Nat.lt_or_ge (bytes.length + 7) r.expectedLength.toNat
    · obtain ⟨t', r', hx', hs', h', hseq, hexp, hid, hext⟩ := acceptConsecutive_continues s h hd hl
      rw [hx', ← List.append_assoc, ← hexp, ← hid, ← hext]
      refine ih t' r' (bytes ++ c.2) (k + 1) hs' h' ?_ (fun c' hc' => hcs c' (List.mem_cons_of_mem c hc')) ?_
      · rw [hseq, hk]
        exact (BitVec.ofNat_add k 1).symm
      · rw [hexp, List.length_append, hd]
        omega
    · have hnil : cs = [] := List.eq_nil_of_length_eq_zero (by omega)
      subst hnil
      obtain ⟨t, hx, hout, hheld⟩ := acceptConsecutive_completes s h hd hl
      rw [List.flatMap_nil, List.append_nil, hx]
      exact ⟨t, rfl, hout, hheld⟩

/-- A First frame of at least 6 bytes opens a session that holds its six bytes (R115). -/
theorem exec_rxFf_holds {s : State} (src : Sender) (high : Nibble) (low : Byte) {d : List Byte} (hr : s.session.rxReady = true)
    (hd : d.length = 6) (hl : 6 ≤ (totalLength high low).toNat) :
    ∃ t r, exec (.rxFf src high (low :: d)) s = .next t ∧ t.session = .awaitingConsecutive r ∧ Holds r d ∧
      r.nextSequence = BitVec.ofNat 4 1 ∧ r.expectedLength = totalLength high low ∧ r.peerId = src.id ∧ r.peerExt = src.extended :=
  ⟨_, _, exec_rxFf_opens src high low d hr hd (totalLength_toNat high low ▸ hl), rfl, ⟨rfl, hd.symm, hd ▸ hl⟩, rfl, rfl, rfl, rfl⟩

/-- Settles O59: the First frame opens a session that holds its six bytes, and the Consecutive frames are as many as are missing. -/
theorem reassemblyDeliversTheConcatenation : Obligations.ReassemblyDeliversTheConcatenation := by
  intro s src high low d cs hr hd hl hcs hcount
  rw [← totalLength_toNat] at hl hcount ⊢
  obtain ⟨t, r, hx, hs, h, hseq, hexp, hid, hext⟩ := exec_rxFf_holds src high low hr hd hl
  rw [execAll, hx, ← hexp, ← hid, ← hext]
  refine execAll_consecutiveFrom cs t r d 1 hs h hseq hcs ?_
  rw [hcount, framesToComplete, hexp, hd]

end Sys2Proof.Reassembly
end

section
/-! What a step leaves behind (42_control.md, 60_exceptions.md, 44_host_boundary.md): errors, terminal states, flow control, the static configuration and the transition table, read off the outcomes of an instruction. -/

open Sys2Proof.Machine Sys2Proof.Laws Sys2Proof.Dispatch Sys2Proof.Effects Sys2Proof.Reassembler Sys2Proof.RxRows Sys2Proof.Buffer
  Sys2Proof.Invariant

namespace Sys2Proof.Outcomes

/-! ### The row of an opened and of a continued session's frame (R81) -/

theorem rowOf_first {i : Instr} {f : CanFrame} {total : Count} {d : List Byte} (hf : i.frame = some f) (hn : f.rtr = false)
    (hc : classify f.data = .ok (.first total d)) : ∃ src high rest, rowOf i = .rxFf src high rest :=
  rowOf_of_frame hf ▸ classify_first_row f hn total d hc

theorem rowOf_consecutive {i : Instr} {f : CanFrame} {sn : Nibble} {d : List Byte} (hf : i.frame = some f) (hn : f.rtr = false)
    (hc : classify f.data = .ok (.consecutive sn d)) : ∃ src sn rest, rowOf i = .rxCf src sn rest :=
  rowOf_of_frame hf ▸ classify_consecutive_row f hn sn d hc

/-! ### The readout of a completed session (R27) -/

/-- The payload that was read for delivery is what the host reads out. -/
theorem heldResult_completedSession {r : Receiving} {buf : Memory} {p : List Byte}
    (hp : memRead buf (r.bufLen.toNat + appendCount r) 0 r.expectedLength.toNat = some p) :
    (completedSession r buf (r.bufLen.toNat + appendCount r)).heldResult = some (r.peerId, r.peerExt, p) := by
  simp only [completedSession, Session.heldResult, toNat_newLen, hp, Option.map_some]

/-! ### The deadline (R144) -/

theorem armed_of_rxFf {src : Sender} {high : Nibble} {rest : List Byte} {s t : State} {r : Receiving} (hr : s.session.rxReady = true)
    (h : exec (.rxFf src high rest) s = .next t) (ht : t.session = .awaitingConsecutive r) : r.deadline = armedDeadline s := by
  obtain ⟨c, rfl⟩ | ⟨total, d, -, rfl⟩ := exec_rxFf_cases hr h
  · cases ht
  · cases ht; rfl

theorem armed_of_rxCf {src : Sender} {sn : Nibble} {rest : List Byte} {s t : State} {r r' : Receiving}
    (hs : s.session = .awaitingConsecutive r) (h : exec (.rxCf src sn rest) s = .next t) (ht : t.session = .awaitingConsecutive r') :
    r'.deadline = armedDeadline s := by
  obtain ⟨c, rfl⟩ | ⟨d, ha⟩ := exec_rxCf_cases hs h
  · cases ht
  · obtain ⟨buf, -, ⟨-, p, -, rfl⟩ | ⟨-, rfl⟩⟩ := acceptConsecutive_cases r d s t ha
    · cases ht
    · cases ht; rfl

/-! ### How much a Consecutive frame appends (R118) -/

theorem appendCount_of_more {r : Receiving} (h : r.bufLen.toNat + 7 < r.expectedLength.toNat) : appendCount r = 7 :=
  Nat.min_eq_left (by change 7 ≤ _; omega)

theorem newLen_of_last {r : Receiving} (hle : r.bufLen.toNat ≤ r.expectedLength.toNat)
    (h : r.expectedLength.toNat ≤ r.bufLen.toNat + 7) : r.bufLen.toNat + appendCount r = r.expectedLength.toNat := by
  simp only [appendCount, Config.cfData]
  omega

/-! ### The obligations -/

/-- Settles O32: the abort procedure is the only outcome, but for a request's, that emits `ERROR` or enters `Aborted`. -/
theorem errorComesWithAborted : Obligations.ErrorComesWithAborted := by
  intro i s t hi h
  refine ⟨fun c hc => ?error, fun c hc => ?aborted⟩
  case error =>
    cases effect_of_exec h with
    | aborted _ hr => cases hc; exact ⟨rfl, hr⟩
    | notEncoded he => exact absurd he (hi _ _ _)
    | held | ignored | delivered | opened | continued | completed | requested | shown | nothing | cleared => cases hc
  case aborted =>
    cases effect_of_exec h with
    | aborted => cases hc; exact .inr rfl
    | held | ignored | delivered | requested | notEncoded | shown | nothing => exact .inl hc
    | opened | continued | completed | cleared => cases hc

/-- Settles O34: every other outcome that changes the session needs a ready block. -/
theorem terminalStateIsLeftOnlyByClearOrReset : Obligations.TerminalStateIsLeftOnlyByClearOrReset := by
  intro i s t hr hclear hreset h
  have notReady : s.session.rxReady ≠ true := ne_true_of_eq_false hr
  cases effect_of_exec h with
  | held | ignored | delivered | requested | notEncoded | shown | nothing => rfl
  | opened _ hr' => exact absurd hr' notReady
  | aborted _ hr' => exact absurd hr' notReady
  | continued _ _ _ hs => exact absurd (rxReady_of_awaiting hs) notReady
  | completed _ _ hs => exact absurd (rxReady_of_awaiting hs) notReady
  | cleared hi => exact (hi.elim hclear hreset).elim

/-- Settles O35: a session becomes `Complete` only by an accepted frame, which reads the payload from the buffer it leaves. -/
theorem deliveredPayloadIsTheHeldOne : Obligations.DeliveredPayloadIsTheHeldOne := by
  intro i s t h hd ht
  cases effect_of_exec h with
  | completed _ _ _ _ _ hp => exact ⟨_, _, _, rfl, heldResult_completedSession hp⟩
  | held | ignored | delivered | requested | notEncoded | shown | nothing => exact absurd ht (ne_true_of_eq_false hd)
  | opened | continued | aborted | cleared => cases ht

/-- Settles O43: a `TX` that is no request's is that of an opened session. -/
theorem flowControlOnlyForAcceptedFirst : Obligations.FlowControlOnlyForAcceptedFirst := by
  intro i s t hi h
  refine ⟨fun f ho => ?tx, fun ho => ?silent⟩
  case tx =>
    cases effect_of_exec h with
    | opened hf _ hn hc => cases ho; exact ⟨rowOf_first hf hn hc, rfl, _, rfl, rfl, rfl, rfl⟩
    | requested he => exact absurd he (hi _ _ _)
    | held | ignored | delivered | continued | completed | aborted | notEncoded | shown | nothing | cleared => cases ho
  case silent =>
    cases effect_of_exec h with
    | opened => exact absurd rfl (ho _)
    | requested => exact absurd rfl (ho _)
    | held | ignored | delivered | continued | completed | aborted | notEncoded | shown | nothing | cleared => rfl

/-- Settles O44: no outcome writes any of the three. -/
theorem configurationIsStatic : Obligations.ConfigurationIsStatic := by
  intro i s t h
  cases effect_of_exec h with
  | held | ignored | delivered | opened | continued | completed | aborted | requested | notEncoded | shown | nothing | cleared =>
    exact ⟨rfl, rfl, rfl⟩

/-- Settles O45: the two rows that arm the deadline do so whenever they leave a session waiting; any other outcome that does is one that keeps the session. -/
theorem deadlineArmingLaw : Obligations.DeadlineArmingLaw := by
  intro i s t r r' h hs ht
  refine ⟨fun hrow => ?armed, fun hff hcf => ?kept⟩
  case armed =>
    rw [← exec_rowOf] at h
    obtain ⟨src, high, rest, hi⟩ | ⟨src, sn, rest, hi⟩ := hrow
    · rw [hi] at h; exact armed_of_rxFf (rxReady_of_awaiting hs) h ht
    · rw [hi] at h; exact armed_of_rxCf hs h ht
  case kept =>
    cases effect_of_exec h with
    | held | ignored | delivered | requested | notEncoded | shown | nothing =>
      exact Session.awaitingConsecutive.inj (ht.symm.trans hs)
    | opened hf _ hn hc =>
      obtain ⟨src, high, rest, hi⟩ := rowOf_first hf hn hc
      exact absurd hi (hff src high rest)
    | continued hf hn hc =>
      obtain ⟨src, sn, rest, hi⟩ := rowOf_consecutive hf hn hc
      exact absurd hi (hcf src sn rest)
    | completed | aborted | cleared => cases ht

/-- Settles O37: under the session invariant the event completes, and its classification fixes the row of the table. -/
theorem receiveTransitionTable : Obligations.ReceiveTransitionTable := by
  intro f s hr hi
  obtain ⟨t, h⟩ := exec_completes (.rx f) hi
  have hx : receiveFrame f s = .next t := (whenReady_of_ready hr).symm.trans h
  refine ⟨t, h, fun hn => ?remote, fun hn => ?data⟩
  case remote => rw [receiveFrame, if_pos hn] at hx; cases hx; exact ⟨rfl, rfl⟩
  case data =>
    rw [receiveFrame, if_neg (ne_true_of_eq_false hn)] at hx
    refine ⟨fun e hc => ?error, fun l d hc => ?single, fun total d hc ht => ?opens, fun total d hc ht => ?overflow,
      fun sn d hc hs => ?idle, fun sn d r hc hs hsn => ?mismatch, fun sn d r hc hs hsn hl => ?continues,
      fun sn d r hc hs hsn hl => ?completes, fun st bs sep hc => ?flowControl⟩
    case error => rw [hc] at hx; cases hx; exact ⟨rfl, rfl⟩
    case single => rw [hc] at hx; cases hx; exact ⟨rfl, rfl⟩
    case flowControl => rw [hc] at hx; cases hx; exact ⟨rfl, rfl⟩
    case opens =>
      rw [hc, receiveClassified, receiveFirst_opens _ total d s ht (classify_first _ _ _ hc)] at hx
      cases hx; exact ⟨rfl, rfl⟩
    case overflow => rw [hc, receiveClassified, receiveFirst_overflow _ d s ht] at hx; cases hx; exact ⟨rfl, rfl⟩
    case idle => rw [hc, receiveClassified, receiveConsecutive_idle sn d hs] at hx; cases hx; exact ⟨hs, rfl⟩
    case mismatch => rw [hc, receiveClassified, receiveConsecutive_mismatch d hs hsn] at hx; cases hx; exact ⟨rfl, rfl⟩
    case continues =>
      rw [hs] at hi
      obtain ⟨buf, -, -, -, hcontinue⟩ := acceptConsecutive_next r d s hi (classify_consecutive _ _ _ hc)
      rw [hc, receiveClassified, hsn, receiveConsecutive_match d hs, hcontinue (by rw [appendCount_of_more hl]; exact hl.ne)] at hx
      cases hx; exact ⟨rfl, rfl⟩
    case completes =>
      rw [hs] at hi
      obtain ⟨k, -, -, -, hle, -⟩ := Receiving.Inv.counts hi
      obtain ⟨buf, -, -, hcomplete, -⟩ := acceptConsecutive_next r d s hi (classify_consecutive _ _ _ hc)
      obtain ⟨p, hp, -, ha⟩ := hcomplete (newLen_of_last hle hl)
      rw [hc, receiveClassified, hsn, receiveConsecutive_match d hs, ha] at hx
      cases hx; exact ⟨rfl, p, rfl, hp⟩

end Sys2Proof.Outcomes
end

section
/-! The frames of the RX rows and of the rows that touch no session (20_memory.md section 4, 41_reassembler.md). -/

open Sys2Proof.Machine Sys2Proof.Laws Sys2Proof.Reassembler Sys2Proof.RxRows Sys2Proof.Invariant

namespace Sys2Proof.Frames

/-! ### Steps that touch no session -/

/-- The session, the configuration, the held frames and the coming events are as before. -/
def Untouched (s t : State) : Prop := t.session = s.session ∧ t.cfg = s.cfg ∧ t.rxQueue = s.rxQueue ∧ t.inputs = s.inputs

theorem untouched_of_quiet {s t : State} (h : Host.Outcome.next (φ := Fault) (ρ := Refusal) (quiet s) = .next t) : Untouched s t := by
  cases h; exact ⟨rfl, rfl, rfl, rfl⟩

theorem untouched_of_emit {o : Output} {s t : State} (h : Host.Outcome.next (φ := Fault) (ρ := Refusal) (emit o s) = .next t) :
    Untouched s t := by
  cases h; exact ⟨emit_session o s, emit_cfg o s, emit_rxQueue o s, emit_inputs o s⟩

theorem untouched_of_showCodec {c : CodecOut} {s t : State}
    (h : Host.Outcome.next (φ := Fault) (ρ := Refusal) (showCodec c s) = .next t) : Untouched s t := by
  cases h; exact ⟨rfl, rfl, rfl, rfl⟩

theorem untouched_of_noStep {s t : State} (h : noStep s = .next t) : Untouched s t := by
  cases h; exact ⟨rfl, rfl, rfl, rfl⟩

theorem exec_expire_unarmed {s : State} (h : s.session.deadlineArmed = false) : exec .expire s = noStep s :=
  if_neg (ne_true_of_eq_false h)

/-! ### The bytes an append leaves alone -/

/-- Outside the appended bytes a readable byte reads as before, and an unreadable one is unreadable still (R118). -/
theorem read_outside_append {r : Receiving} {d : List Byte} {buf : Memory}
    (hb : memWrite r.buf (appendAddr r) (d.take (appendCount r)) = some buf) {a : Nat}
    (ha : ¬ (appendAddr r ≤ a ∧ a < appendAddr r + appendCount r)) :
    (if a < (BitVec.ofNat 12 (r.bufLen.toNat + appendCount r)).toNat then Memory.read buf a else none) =
      if a < r.bufLen.toNat then Memory.read r.buf a else none := by
  have hlen : (d.take (appendCount r)).length ≤ appendCount r := List.length_take_le _ _
  rw [appendAddr] at ha
  have hread : Memory.read buf a = Memory.read r.buf a := by
    rw [memWrite_some _ _ _ _ hb, read_writeBytes, appendAddr]
    exact if_neg fun ⟨hlo, hhi⟩ => ha ⟨hlo, by omega⟩
  rw [toNat_newLen, hread]
  obtain h | h := Nat.lt_or_ge a r.bufLen.toNat
  · rw [if_pos h, if_pos (by omega)]
  · rw [if_neg (by omega), if_neg (by omega)]

/-! ### The obligations -/

/-- Settles O49: each of these rows ends in one of four updates that touch no session. -/
theorem frameOfSessionlessRows : Obligations.FrameOfSessionlessRows := by
  intro i s t h hr hi
  have untouched : Untouched s t := by
    obtain ⟨src, d, rfl⟩ | ⟨src, st, rest, rfl, hl⟩ | ⟨src, len, rest, rfl, hl⟩ | ⟨src, sn, rest, rfl, hl, hs⟩ | ⟨m, p, e, rfl⟩ |
      ⟨d, rfl⟩ | ⟨f, b, sp, rfl⟩ | ⟨src, rfl⟩ | ⟨m, p, e, rfl⟩ | ⟨rfl, hd⟩ | rfl | rfl | rfl := hi
    · exact untouched_of_quiet ((exec_rxRtr_of_ready hr src d).symm.trans h)
    · exact untouched_of_quiet ((exec_rxFc_ignored src st hr hl).symm.trans h)
    · exact untouched_of_emit ((exec_rxSf_delivers src hr hl).symm.trans h)
    · exact untouched_of_quiet ((exec_rxCf_idle src sn hs hl).symm.trans h)
    · exact untouched_of_emit ((CodecUnit.exec_encodeReq m p e s).symm.trans h)
    · exact untouched_of_showCodec ((CodecUnit.exec_classify d s).symm.trans h)
    · exact untouched_of_showCodec ((CodecUnit.exec_encodeFc f b sp s).symm.trans h)
    · exact untouched_of_showCodec ((CodecUnit.exec_fcCts src s).symm.trans h)
    · exact untouched_of_showCodec ((CodecUnit.exec_req m p e s).symm.trans h)
    · exact untouched_of_noStep ((exec_expire_unarmed hd).symm.trans h)
    · exact untouched_of_noStep h
    · exact untouched_of_noStep h
    · exact untouched_of_noStep h
  obtain ⟨hs, hrest⟩ := untouched
  exact ⟨hs, fun a => by rw [hs], hrest⟩

/-- Settles O50: an accepted frame is one `MemWrite`, and both sessions it can leave keep the declaration and the peer. -/
theorem frameOfAcceptedConsecutive : Obligations.FrameOfAcceptedConsecutive := by
  intro s t r src sn rest hs h herr
  obtain ⟨c, rfl⟩ | ⟨d, ha⟩ := exec_rxCf_cases hs h
  · cases herr
  · rw [hs]
    obtain ⟨buf, hb, ⟨-, p, -, rfl⟩ | ⟨-, rfl⟩⟩ := acceptConsecutive_cases r d s t ha
    · refine ⟨fun a => read_outside_append hb, fun r' h' => ?_, fun c h' => ?_, rfl, rfl, rfl, rfl⟩
      · cases h'
      · cases h'; exact ⟨rfl, rfl, rfl⟩
    · refine ⟨fun a => read_outside_append hb, fun r' h' => ?_, fun c h' => ?_, rfl, rfl, rfl, rfl⟩
      · cases h'; exact ⟨rfl, rfl, rfl⟩
      · cases h'

/-- Settles O51: an aborted session has no readable byte, an opened one the frame's six. -/
theorem frameOfFirst : Obligations.FrameOfFirst := by
  intro s t src high rest hr h
  obtain ⟨c, rfl⟩ | ⟨total, d, hd, rfl⟩ := exec_rxFf_cases hr h
  · exact ⟨fun _ _ => rfl, fun _ _ => rfl, rfl, rfl, rfl⟩
  · refine ⟨fun a ha => ?_, fun herr => ?_, rfl, rfl, rfl⟩
    · rw [readByte_openedSession src total d s hd a]
      exact List.getElem?_eq_none (hd ▸ ha)
    · cases herr

end Sys2Proof.Frames
end

section
/-! The control rows (42_control.md), the status signals and codes (10_state.md section 3, 30_encoding.md section 6), the reset state (10_state.md section 7), and the timer's comparison (R145). -/

open Sys2Proof.Machine Sys2Proof.Laws Sys2Proof.Frames

namespace Sys2Proof.Control

/-! ### Time modulo the counter's width (R145) -/

/-- The signed difference of two times, as the difference of the ticks after a common start. -/
theorem toInt_sub_ticks {w : Nat} (start : BitVec w) (e timeout : Nat) :
    (start + BitVec.ofNat w e - (start + BitVec.ofNat w timeout)).toInt = ((e : Int) - timeout).bmod (2 ^ w) := by
  rw [add_sub_add_left_eq_sub, BitVec.toInt_sub, BitVec.toInt_ofNat', BitVec.toInt_ofNat', Int.sub_bmod_bmod, Int.bmod_sub_bmod]

/-! ### The obligations -/

/-- Settles O38: an armed deadline takes the abort branch. -/
theorem expireAbortsAnArmedSession : Obligations.ExpireAbortsAnArmedSession :=
  fun _ h => if_pos h

/-- Settles O39: without one the other branch does nothing. -/
theorem expireIsNotEnabledUnarmed : Obligations.ExpireIsNotEnabledUnarmed :=
  fun _ h => exec_expire_unarmed h

/-- Settles O40: `discardSession` writes the session and the outputs only. -/
theorem clearDestroysTheSession : Obligations.ClearDestroysTheSession :=
  fun _ => rfl

/-- Settles O41: the session's reset value is `Idle`, which is what `CLEAR` leaves. -/
theorem resetGivesTheResetState : Obligations.ResetGivesTheResetState :=
  fun _ => ⟨rfl, rfl⟩

/-- Settles O42: each reserved tag is `noStep`. -/
theorem reservedTagsDoNothing : Obligations.ReservedTagsDoNothing :=
  fun _ => ⟨rfl, rfl, rfl⟩

/-- Settles O46: below half a turn of the counter the signed difference is the difference itself. -/
theorem timerComparisonSurvivesOneWrap : Obligations.TimerComparisonSurvivesOneWrap := by
  intro w start timeout e hw ht he
  have hpow : 2 ^ w = 2 * 2 ^ (w - 1) := (mul_pow_sub_one hw.ne' 2).symm
  have hdiff : ((e : Int) - timeout).bmod (2 ^ w) = e - timeout := by
    rw [hpow]
    apply Int.bmod_eq_of_le <;> omega
  rw [deadlinePassed, toInt_sub_ticks, hdiff, decide_eq_decide]
  omega

/-- Settles O47: one row of the table of R29 for each of the four states. -/
theorem statusSignalsFollowTheState : Obligations.StatusSignalsFollowTheState := by
  intro s
  cases s with
  | idle | awaitingConsecutive | complete | aborted =>
    simp [Session.rxReady, Session.st, Session.busy, Session.done, Session.error, Session.deadlineArmed]

/-- Settles O48: the table of R75. -/
theorem errorCodes : Obligations.ErrorCodes :=
  ⟨rfl, rfl, rfl, rfl, rfl, rfl, rfl⟩

/-- Settles O55: `Idle` decides every signal and holds nothing readable. -/
theorem resetValues : Obligations.ResetValues :=
  ⟨rfl, rfl, rfl, rfl, rfl, rfl, fun _ => rfl, rfl, rfl, rfl, rfl⟩

end Sys2Proof.Control
end

section
/-! The host boundary (44_host_boundary.md): what the duties of R160 to R167 buy, and the `CLEAR` a terminal state is owed. -/

open Sys2Proof.Machine Sys2Proof.Laws Sys2Proof.Effects Sys2Proof.Invariant

namespace Sys2Proof.HostDuties

/-- An event that may come has a step where it comes: `EXPIRE` only while armed, a reserved tag never (R140, R146). -/
theorem not_hasNoStep_of_mayOccur {b : HostBook} {s : State} {m : HostMove} (h : b.mayOccur s m = true) : ¬ HasNoStep m.event s := by
  obtain ⟨i, w⟩ := m
  obtain ⟨-, hi⟩ := Bool.and_eq_true_iff.mp h
  rintro (⟨rfl, hd⟩ | rfl | rfl | rfl)
  · exact absurd hi (ne_true_of_eq_false hd)
  · cases hi
  · cases hi
  · cases hi

/-- Where a step's output is heard, a terminal state is owed a `CLEAR` after it if it was before (R162, R163). -/
theorem knows_hear {b : HostBook} {i : Instr} {s t : State} (hk : b.Knows s) (h : exec i s = .next t) : (b.hear t).Knows t := by
  intro ht howed
  obtain ⟨hb, hnoError, hnoDeliver⟩ := hear_owed b t howed
  obtain ⟨c, hc⟩ | ⟨j, e, p, ho, hd⟩ | ⟨hs, -⟩ := terminal_cases i s t h ht
  · exact hnoError c hc
  · exact absurd hd (ne_true_of_eq_false (hnoDeliver j e p ho))
  · exact hk hs hb

/-- A book that has noted a request owes what it owed (R160). -/
theorem knows_request {b : HostBook} {s : State} (hk : b.Knows s) (q : Option HostRequest) : HostBook.Knows { b with request := q } s := hk

/-- A ready block is owed nothing. -/
theorem knows_of_ready (b : HostBook) {t : State} (h : t.session.rxReady = true) : b.Knows t :=
  fun ht => absurd h (ne_true_of_eq_false ht)

/-- Every event keeps the host's knowledge. -/
theorem knows_after {b : HostBook} {m : HostMove} {s t : State} (hk : b.Knows s) (h : exec m.event s = .next t) :
    (b.after m t).Knows t := by
  obtain ⟨i, w⟩ := m
  cases i with
  | clear => cases h; exact knows_of_ready _ rfl
  | reset => cases h; exact knows_of_ready _ rfl
  | encodeReq m p e => exact knows_hear (knows_request hk _) h
  | rxSf | rxSfLenRsvd | rxFf | rxCf | rxFc | rxPciRsvd47 | rxPciRsvd8F | rxEmpty | rxRtr | rxHold | rx | expire | evtRsvd5 | evtRsvd6
  | evtRsvd7 | classify | encodeFc | fcCts | req => exact knows_hear hk h

/-! ### The obligations -/

/-- Settles O53: only a held frame and an event without a step are not accepted, and the duties exclude both. -/
theorem dutifulEventsAreAccepted : Obligations.DutifulEventsAreAccepted := by
  intro b s m hi _ hm
  obtain ⟨t, h⟩ := exec_completes m.event hi.session
  refine ⟨t, h, ?_⟩
  cases effect_of_exec h with
  | held hf hr =>
    obtain ⟨-, hready, -⟩ := mayOccur_frame b s m _ hf hm
    exact absurd hready (ne_true_of_eq_false hr)
  | nothing hn => exact absurd hn (not_hasNoStep_of_mayOccur hm)
  | ignored | delivered | opened | continued | completed | aborted | requested | notEncoded | shown | cleared => exact ⟨rfl, rfl⟩

/-- Settles O54: a frame may come to a ready block only, and a request only while nothing is owed. -/
theorem terminalStateOwesAClear : Obligations.TerminalStateOwesAClear := by
  intro b s t m hk hm h
  refine ⟨knows_after hk h, fun hr => ⟨?noFrame, fun mode pid extra he => ?noRequest⟩⟩
  case noFrame =>
    refine Option.eq_none_iff_forall_ne_some.mpr fun f hf => ?_
    obtain ⟨-, hready, -⟩ := mayOccur_frame b s m f hf hm
    exact absurd hready (ne_true_of_eq_false hr)
  case noRequest =>
    obtain ⟨i, w⟩ := m
    obtain rfl : i = _ := he
    obtain ⟨howed, -⟩ := mayOccur_encodeReq b s w mode pid extra hm
    exact hk hr howed

end Sys2Proof.HostDuties
end
